-- ==== Sys2Proof/Word.lean ====
section
/-! DEFINITION. The unsigned integers uN of spec/00_scope.md R6, as bit vectors: arithmetic on a uN is
modulo 2^N, bit 0 is the least significant bit. -/

namespace Sys2Proof

/-- u8: a byte of BUF, a table index, a checksum (R6, R29). -/
abbrev U8 := BitVec 8

/-- u16: a table entry, the working register, the CRC accumulator, a length (R4, R5). -/
abbrev U16 := BitVec 16

/-- u32: a command word (CMDW = 32) and the running sum (SUMW = 32) (R5). -/
abbrev U32 := BitVec 32

end Sys2Proof
end

