-- ==== Sys2Proof/Config.lean ====
section
/-! DEFINITION. The parameters of the block: those the document fixes (spec/00_scope.md R4), those the spec
decides (R5), and the one free value of the host's script notation (spec/30_encoding.md R55). -/

namespace Sys2Proof

/-- `POLY` (R4): the generator polynomial without its x^16 term, not reflected. -/
def Config.poly : U16 := 0x1021#16

/-- `SEED` (R4, R69): the initial value of the CRC accumulator. -/
def Config.seed : U16 := 0x1D0F#16

/-- `TSIZE` (R4): the number of table entries. -/
def Config.tsize : Nat := 256

/-- `ROUNDS` (R4): shift rounds per table entry. -/
def Config.rounds : Nat := 8

/-- `LENW` (R5): a length is an unsigned integer of this many bits. DESIGN CHOICE of the spec (D4). -/
def Config.lenw : Nat := 16

/-- The bytes of a buffer that a script's `bind [b0, ...] size n` does not list "are arbitrary" (R55): a FREE
VALUE, one per index, with no body, so nothing can be proved of it (log entry 16). -/
opaque Config.unlistedByte : Nat → U8

end Sys2Proof
end

