-- ==== Sys2Proof/Syntax.lean ====
section
/-! DEFINITION. The three commands of the block (spec/30_encoding.md R46, R53; spec/opcode_table.json). -/

namespace Sys2Proof

/-- A command: the operation and, for two of them, the length operand `LEN`, a count of bytes (R46, R47). The
buffer is not part of the word: the host binds it (R52). -/
inductive Instr where
  /-- `crc16_table_gen`, alias `TGEN`: no operand (R56). -/
  | crc16TableGen
  /-- `crc16_poly_fold <len>`, alias `CRC16` (R67). -/
  | crc16PolyFold (len : Nat)
  /-- `checksum8_accum <len>`, alias `CSUM8` (R80). -/
  | checksum8Accum (len : Nat)
  deriving DecidableEq, Repr

/-- The value of the length operand of a command; `crc16_table_gen` has none and leaves the field 0 (R45). -/
def Instr.len : Instr → Nat
  | .crc16TableGen => 0
  | .crc16PolyFold len => len
  | .checksum8Accum len => len

/-- The mnemonic of the opcode table (R53). -/
def Instr.mnemonic : Instr → String
  | .crc16TableGen => "crc16_table_gen"
  | .crc16PolyFold _ => "crc16_poly_fold"
  | .checksum8Accum _ => "checksum8_accum"

end Sys2Proof
end

