-- ==== Sys2Proof/WellFormed.lean ====
section
/-! DEFINITION. Which commands exist: `<len>` is an integer from 0 to 65535 (spec/30_encoding.md R47, R53). -/

namespace Sys2Proof

/-- A length operand fits its `LENW` = 16 bits (R5, R47). -/
def lenFits (len : Nat) : Bool := len < 2 ^ Config.lenw

/-- The checks on a command: its length operand, where it has one, fits. -/
def Instr.wellFormed : Instr → Bool
  | .crc16TableGen => true
  | .crc16PolyFold len => lenFits len
  | .checksum8Accum len => lenFits len

/-- The command can be written as a command word. -/
abbrev Instr.WellFormed (i : Instr) : Prop := i.wellFormed = true

end Sys2Proof
end

