-- ==== Sys2Proof/Decode.lean ====
section
/-! DEFINITION. Command words: the fields (spec/30_encoding.md R44, R45, R47), the total decoder (R48 to R51) and
the encoder written from the same table. A command word is a number presented at the port, not bytes of a memory
(R42, R44), so no byte order enters (log entry 19). -/

namespace Sys2Proof

/-- Why a word is reserved (R49); every reserved word has one of these reasons. -/
inductive Reserved where
  /-- `OP` = 0b00. -/
  | opZero
  /-- `ZERO` is not 0 (and `OP` is not 0b00). -/
  | zeroFieldNotZero
  /-- `OP` = 0b01 with `LEN` not 0 (and `ZERO` = 0). -/
  | tableGenWithLen
  deriving DecidableEq, Repr

/-- What a word decodes to (R51): a command, or reserved. -/
inductive Decoded where
  | cmd (i : Instr)
  | reserved (why : Reserved)
  deriving DecidableEq, Repr

/-- Field `OP`, bits 31:30 (R45). -/
def opField (c : U32) : BitVec 2 := c.extractLsb' 30 2

/-- Field `ZERO`, bits 29:16 (R45). -/
def zeroField (c : U32) : BitVec 14 := c.extractLsb' 16 14

/-- Field `LEN`, bits 15:0 (R45), an unsigned count of bytes: not sign-extended, not scaled (R47). -/
def lenField (c : U32) : Nat := (c.extractLsb' 0 16).toNat

/-- The reason a word that matches no row of R48 is reserved (R49). -/
def reservedReason (c : U32) : Reserved :=
  if opField c = 0b00#2 then .opZero
  else if zeroField c ≠ 0#14 then .zeroFieldNotZero
  else .tableGenWithLen

/-- Decode, total on 32-bit words (R51, the mask and match values of R48). -/
def decode (c : U32) : Decoded :=
  if c &&& 0xFFFFFFFF#32 = 0x40000000#32 then .cmd .crc16TableGen
  else if c &&& 0xFFFF0000#32 = 0x80000000#32 then .cmd (.crc16PolyFold (lenField c))
  else if c &&& 0xFFFF0000#32 = 0xC0000000#32 then .cmd (.checksum8Accum (lenField c))
  else .reserved (reservedReason c)

/-- The command of a decoded word, if it has one. -/
def Decoded.instr? : Decoded → Option Instr
  | .cmd i => some i
  | .reserved _ => none

/-- The two bits `OP` of a command (R46). -/
def Instr.opBits : Instr → BitVec 2
  | .crc16TableGen => 0b01#2
  | .crc16PolyFold _ => 0b10#2
  | .checksum8Accum _ => 0b11#2

/-- The command word of a well-formed command: `{OP, ZERO, LEN}` (R44, R45). -/
def encode (i : Instr) : U32 :=
  i.opBits ++ (0#14 ++ BitVec.ofNat 16 i.len)

/-- The 32-bit word whose low `nbits` bits are those of `w` and whose other bits are 0; none where those bits do
not fit one command word. -/
def tableWord? (nbits w : Nat) : Option U32 :=
  if w % 2 ^ nbits < 2 ^ 32 then some (BitVec.ofNat 32 (w % 2 ^ nbits)) else none

/-- What the decoder reads from an instruction whose bits are `w`, numbered as the opcode table numbers them. A
command is one 32-bit word (R44), so the table's numbering is the word's own. -/
def decodeTableWord (nbits w : Nat) : Option Instr :=
  match tableWord? nbits w with
  | some c => (decode c).instr?
  | none => none

end Sys2Proof
end

