-- ==== Sys2Proof/Machine/State.lean ====
section
/-! DEFINITION. The state of the block (spec/10_state.md R10, every element), the host's side of the command port
as plain data (spec/70_reset_and_hazards.md R120), the state after reset (R26, R106), and the reasons a step can
stop. -/

namespace Sys2Proof.Machine

/-- `PHASE` (R20): what the sequencer is doing. -/
inductive Phase where
  /-- No command in progress; a command can be accepted. -/
  | idle
  /-- Generating the table. -/
  | gen
  /-- Folding buffer bytes into `ACC`. -/
  | fold
  /-- Adding buffer bytes into `SUM`. -/
  | accum
  deriving DecidableEq, Repr

/-- `OP` (R19): the operation of the command in progress. -/
inductive Op where
  | crc16TableGen
  | crc16PolyFold
  | checksum8Accum
  deriving DecidableEq, Repr

/-- Bytes by index: strictly rising indices, no entry equal to what an unlisted index holds (`Memory.wf` of
Ops.lean). -/
abbrev Memory := List Host.Cell

/-- A buffer as the host binds it (R29, R52): `BUFSZ` bytes, `BUFSZ` a u16 (R5); `cells` lists those that are not
0x00. An unlisted index below `BUFSZ` holds 0x00, so every buffer of bytes is one such datum (log entry 4). -/
structure Buffer where
  size : U16
  cells : Memory
  deriving DecidableEq, Repr

/-- The buffer of no bytes: `BUFSZ` = 0 (R29). -/
def Buffer.empty : Buffer := { size := 0#16, cells := [] }

/-- `TABLE` (R11, R30): 256 entries; `none` is an entry that holds no value (R26, U9). -/
abbrev Table := Vector (Option U16) 256

/-- The machine. The first fourteen fields are the elements of R10; the others are the buffer of the command in
progress and the host's side of the port. -/
structure State where
  /-- `TABLE[0..255]` (R11). -/
  table : Table
  /-- `TVALID` (R12): every entry of `TABLE` has been generated. -/
  tvalid : Bool
  /-- `W` (R13): the working register of table generation. -/
  w : U16
  /-- `ACC` (R14): the running CRC accumulator. -/
  acc : U16
  /-- `SUM` (R15, R87): the running sum of bytes. -/
  sum : U32
  /-- `CSUM` (R16): the checksum after the bytes seen so far. -/
  csum : U8
  /-- `PHASE` (R20). -/
  phase : Phase
  /-- `OP` (R19). -/
  op : Op
  /-- `LEN` (R19): the length operand of the command in progress. -/
  len : U16
  /-- `IDX` (R21): the next byte of `BUF` to consume. -/
  idx : U16
  /-- `TI` (R22): the table entry being generated. -/
  ti : U8
  /-- `RK` (R22): rounds done on `W` for entry `TI`, 0 to 8. -/
  rk : Fin 9
  /-- `RESULT` (R18). -/
  result : U16
  /-- `RVALID` (R18). -/
  rvalid : Bool
  /-- `BUF` (R29, R52): the buffer of the command in progress, read-only to the block. -/
  buf : Buffer
  /-- The command word waiting at the port, at most one (R51, R113). -/
  cmdWord : Option U32
  /-- The buffer the host binds to the command at the port (R52). -/
  cmdBuf : Buffer
  /-- The host raises the reset event (R105). -/
  resetLine : Bool
  deriving DecidableEq, Repr

/-- The state after reset (R26, R106): `PHASE` = IDLE, `TVALID` = 0, `RVALID` = 0 and no entry of `TABLE` holds a
value. The other registers are unspecified in R26; DESIGN CHOICE: zero, and `OP` the first operation of R46 (log
entry 1). The port is empty and the reset event is over (log entry 6). -/
def State.reset : State where
  table := Vector.replicate 256 none
  tvalid := false
  w := 0#16
  acc := 0#16
  sum := 0#32
  csum := 0#8
  phase := .idle
  op := .crc16TableGen
  len := 0#16
  idx := 0#16
  ti := 0#8
  rk := 0
  result := 0#16
  rvalid := false
  buf := Buffer.empty
  cmdWord := none
  cmdBuf := Buffer.empty
  resetLine := false

/-- The model's faults. The block raises nothing (R92): each of these stands for a read or a state that the rules
exclude from every run (R26, R27, R37), and none is reached from a state that meets `Inv` (Safety.lean). All are
SAFE: the model stops and invents no value. -/
inductive Fault where
  /-- Raised by fold_byte on a `TABLE` entry that holds no value (R26, U9). Safe. -/
  | tableEntryUnwritten
  /-- Raised by fold_byte and accum_byte on an index at or above `BUFSZ` (R37, U1). Safe. -/
  | bufferIndexOutOfRange
  /-- Raised by the sequencer in PHASE FOLD or ACCUM with `IDX` > `LEN`, where R76 and R90 enable no micro-step.
  Safe. -/
  | noMicroStepEnabled
  deriving DecidableEq, Repr

/-- The model's refusals. All are SAFE: nothing is proved of a run that meets one. -/
inductive Refusal where
  /-- An arm of `exec` without a meaning; no arm of this model uses it. Safe. -/
  | notModelled (mnemonic : String)
  /-- Raised by `step` on a reserved word presented while `PHASE` = IDLE: `refuse(ReservedCommand)` (R49, U8). Safe. -/
  | reservedCommand (why : Reserved)
  /-- Raised by the acceptance of crc16_poly_fold and checksum8_accum with `LEN` > `BUFSZ`:
  `refuse(LengthExceedsBuffer)` (R37, U1). Safe. -/
  | lengthExceedsBuffer
  deriving DecidableEq, Repr

end Sys2Proof.Machine
end

