-- ==== Sys2Proof/Machine/Ops.lean ====
section
/-! DEFINITION. The named operations: memory, buffer and table accesses (spec/20_memory.md), reset and the command
port (spec/70_reset_and_hazards.md). Taking an exception and returning from one have no operation here: the block
raises none and has no trap and no trap return (spec/60_exceptions.md R92, R98, R99). -/

namespace Sys2Proof.Machine

/-! ## Bytes by index -/

/-- The byte at an index; an unlisted index holds 0x00 (log entry 4). -/
def Memory.read : Memory → Nat → U8
  | [], _ => 0#8
  | (a, b) :: m, i => if a = i then b else Memory.read m i

/-- The memory with byte `b` at index `i`, in canonical form: writing 0x00 removes the entry. -/
def Memory.write : Memory → Nat → U8 → Memory
  | [], i, b => if b = 0#8 then [] else [(i, b)]
  | (a, c) :: m, i, b =>
    if i < a then (if b = 0#8 then (a, c) :: m else (i, b) :: (a, c) :: m)
    else if i = a then (if b = 0#8 then m else (i, b) :: m)
    else (a, c) :: Memory.write m i b

/-- The canonical form: indices strictly rise and no listed byte is 0x00. -/
abbrev Memory.wf (m : Memory) : Prop :=
  (m.map Prod.fst).Pairwise (· < ·) ∧ ∀ c ∈ m, c.2 ≠ 0#8

/-- The memory that holds a list of bytes from index `k` on. -/
def Memory.ofBytesFrom (k : Nat) : List U8 → Memory
  | [] => []
  | b :: bs => if b = 0#8 then Memory.ofBytesFrom (k + 1) bs else (k, b) :: Memory.ofBytesFrom (k + 1) bs

/-! ## The buffer -/

/-- The buffer's bytes are in canonical form and all lie below `BUFSZ`. -/
abbrev Buffer.wf (B : Buffer) : Prop :=
  B.cells.wf ∧ ∀ c ∈ B.cells, c.1 < B.size.toNat

/-- `B[i]` as a total function, for the pure functions of R71 and R81, whose precondition is `i < BUFSZ`. -/
def Buffer.byteAt (B : Buffer) (i : Nat) : U8 := B.cells.read i

/-- `MemRead(BUF, i, 1)` (R7, R35): no value at or above `BUFSZ` (R37). -/
def Buffer.read? (B : Buffer) (i : Nat) : Option U8 :=
  if i < B.size.toNat then some (B.byteAt i) else none

/-- The buffer with byte `i` replaced by the host; an index at or above `BUFSZ` names no byte. -/
def Buffer.write (B : Buffer) (i : Nat) (b : U8) : Buffer :=
  if i < B.size.toNat then { B with cells := B.cells.write i b } else B

/-- The buffer of a list of bytes (R8); a buffer has at most 65535 bytes (R5), so no more are taken (log entry 5). -/
def Buffer.ofBytes (bytes : List U8) : Buffer :=
  { size := BitVec.ofNat 16 (bytes.take 65535).length, cells := Memory.ofBytesFrom 0 (bytes.take 65535) }

/-! ## The table -/

/-- `MemRead(TABLE, i, 2)`: the whole entry `i` (R30, R35). A u8 index is always in range (R38). -/
def readTable (t : Table) (i : U8) : Option U16 := t[i.toNat]'i.isLt

/-- `MemWrite(TABLE, i, 2, v)`: the whole entry `i` (R30, R35). -/
def writeTable (t : Table) (i : U8) (v : U16) : Table := t.set i.toNat (some v) i.isLt

/-! ## Reset and the port -/

/-- The reset event (R105 to R108): whatever the state of the block, the state after reset. A command in progress is
abandoned. The model's choices: the word at the port, which is not accepted, leaves the port, the buffer that the host
has bound for its following commands (R55) stays bound (log entry 6), and the event is over (log entry 24). -/
def takeReset (s : State) : State := { State.reset with cmdBuf := s.cmdBuf }

/-- A command is in progress: the host sees not ready (R24). -/
def State.busy (s : State) : Bool := s.phase ≠ .idle

/-- The command word at the port, if the host presents one (R51). The block fetches nothing from memory (R42). -/
def portWord (s : State) : Option U32 := s.cmdWord

/-- In IDLE with no word at the port no step is enabled (R20): the machine waits for the host (log entry 7). -/
def waitForHost (s : State) : State := s

/-- The buffer `B` where it has at least `len` bytes, else `len` bytes of 0x00. -/
def bufferOfAtLeast (B : Buffer) (len : Nat) : Buffer :=
  if len ≤ B.size.toNat then B else { size := BitVec.ofNat 16 len, cells := [] }

/-- The state in which the next step accepts word `c`: no reset, no command in progress, `c` at the port, and a
buffer bound that the word's length does not exceed (log entry 8). -/
def placeCommand (s : State) (c : U32) : State :=
  { s with
    resetLine := false
    phase := .idle
    cmdWord := some c
    cmdBuf := bufferOfAtLeast s.cmdBuf (lenField c) }

/-- `placeCommand` of the word the opcode table's bits give; bits that fit no command word place nothing. -/
def placeTableWord (s : State) (nbits w : Nat) : State :=
  match tableWord? nbits w with
  | some c => placeCommand s c
  | none => s

end Sys2Proof.Machine
end

