-- ==== Sys2Proof/Machine/Operands.lean ====
section
/-! DEFINITION. The operands of a command: `LEN` from the word (spec/30_encoding.md R47), the bound buffer (R52) and
the caller's contract between them (spec/20_memory.md R37). -/

namespace Sys2Proof.Machine

/-- `LEN` as the sequencer's register holds it: u16 (R19). -/
def lenOperand (len : Nat) : U16 := BitVec.ofNat 16 len

/-- The operand `data`: the buffer the host has bound at the port (R52). -/
def bufOperand (s : State) : Buffer := s.cmdBuf

/-- `BUF` becomes the operand `data` for the whole command (R52). -/
def takeBuffer (B : Buffer) (s : State) : State := { s with buf := B }

/-- The contract `length <= len(data)`: `LEN` ≤ `BUFSZ` (R37, R115). -/
def lengthOk (len : Nat) (B : Buffer) : Bool := len ≤ B.size.toNat

end Sys2Proof.Machine
end

