-- ==== Sys2Proof/Machine/Flags.lean ====
section
/-! DEFINITION. The two one-bit elements `TVALID` and `RVALID`, and everything that writes them (spec/10_state.md
R12, R18, R23). The block has no condition codes (R23). -/

namespace Sys2Proof.Machine

/-- Acceptance clears `RVALID`, latches `OP` and `LEN` (R18, R19, R51); the word leaves the port. -/
def latchCommand (op : Op) (len : Nat) (s : State) : State :=
  { s with op := op, len := lenOperand len, rvalid := false, cmdWord := none }

/-- The last commit of a generation sets `TVALID` (R12, R61). -/
def publishTable (s : State) : State := { s with tvalid := true }

/-- The end of FOLD and ACCUM: `RESULT` is written, `RVALID` is set, the block is ready (R18). -/
def deliver (v : U16) (s : State) : State :=
  { s with result := v, rvalid := true, phase := .idle }

end Sys2Proof.Machine
end

