-- ==== Sys2Proof/Machine/Pure.lean ====
section
/-! DEFINITION. The pure functions that the source fixes numerically: the table (spec/40_crc16_table_gen.md R57 to
R59), the CRC (spec/41_crc16_poly_fold.md R69 to R72), the sum and checksum (spec/42_checksum8_accum.md R81 to
R83). -/

namespace Sys2Proof.Machine

/-- One round (R57): test bit 15 before the shift, shift left one within 16 bits, XOR the polynomial where the
bit was set. -/
def crcRound (w : U16) : U16 :=
  if w[15] then (w <<< 1) ^^^ Config.poly else w <<< 1

/-- `k` rounds. -/
def crcRounds : Nat → U16 → U16
  | 0, w => w
  | k + 1, w => crcRound (crcRounds k w)

/-- `zext_16(i) << 8`: the byte in the high octet (R58). -/
def highOctet (i : U8) : U16 := i.setWidth 16 <<< 8

/-- `entry(i)` (R58): exactly 8 rounds on the byte in the high octet. -/
def entry (i : U8) : U16 := crcRounds Config.rounds (highOctet i)

/-- `TGEN_TABLE` (R59). -/
def tgenTable : Vector U16 256 := Vector.ofFn fun i => entry (BitVec.ofFin i)

/-- The table index of a fold (R70): `(acc[15:8] ^ b) & 0xFF`, a u8. -/
def tableIndex (acc : U16) (b : U8) : U8 := acc.extractLsb' 8 8 ^^^ b

/-- A fold with the table entry given: `trunc_16(acc << 8) ^ e` (R70). -/
def foldWith (acc e : U16) : U16 := (acc <<< 8) ^^^ e

/-- One fold step (R70). -/
def fold (acc : U16) (b : U8) : U16 := foldWith acc (entry (tableIndex acc b))

/-- `crc16(B, L)` (R71, R72): the left fold from the seed over `B[0]`, ..., `B[L-1]`. Meant for `L` ≤ `BUFSZ`. -/
def crc16 (B : Buffer) : Nat → U16
  | 0 => Config.seed
  | k + 1 => fold (crc16 B k) (B.byteAt k)

/-- `sum_L` (R81), a mathematical integer. -/
def byteSum (B : Buffer) : Nat → Nat
  | 0 => 0
  | k + 1 => byteSum B k + (B.byteAt k).toNat

/-- The sum kept in a register of `N` bits (R88): `s_{k+1} = trunc_N(s_k + zext_N(B[k]))`. `SUM` is `N` = 32 (R87). -/
def sumOfWidth (N : Nat) (B : Buffer) : Nat → BitVec N
  | 0 => 0#N
  | k + 1 => sumOfWidth N B k + (B.byteAt k).setWidth N

/-- `neg8(s)` (R82): `trunc_8(0x100 - (s & 0xFF))`. -/
def neg8 (s : Nat) : U8 := BitVec.ofNat 8 (0x100 - s % 256)

/-- `checksum8(B, L)` (R83): `c_0 = 0`, then the checksum of the sum after each byte. -/
def checksum8 (B : Buffer) : Nat → U8
  | 0 => 0#8
  | k + 1 => neg8 (byteSum B (k + 1))

end Sys2Proof.Machine
end

