-- ==== Sys2Proof/Machine/MicroSteps.lean ====
section
/-! DEFINITION. The sequencer: entering a phase (spec R60, R75, R89) and the six micro-steps (R61, R76, R90). All
assignments of one micro-step happen together, from the values before it (R7). -/

namespace Sys2Proof.Machine

/-! ## Entering a phase -/

/-- Entry to GEN: `TI`, `RK` ← 0, `W` ← 0x0000 (R60, R75). -/
def enterGen (s : State) : State := { s with ti := 0#8, rk := 0, w := 0#16, phase := .gen }

/-- Entry to FOLD: `ACC` ← 0x1D0F, `IDX` ← 0 (R61, R75). -/
def enterFold (s : State) : State := { s with acc := Config.seed, idx := 0#16, phase := .fold }

/-- Entry to ACCUM: `SUM`, `CSUM`, `IDX` ← 0 (R89). -/
def enterAccum (s : State) : State :=
  { s with sum := 0#32, csum := 0#8, idx := 0#16, phase := .accum }

/-- Back to IDLE: the block is ready (R20). -/
def becomeIdle (s : State) : State := { s with phase := .idle }

/-! ## GEN (R61) -/

/-- gen_round: one round on `W`. -/
def genRound (s : State) : State := { s with w := crcRound s.w, rk := s.rk + 1 }

/-- The write of gen_commit: `TABLE[TI]` ← `W`. -/
def commitEntry (s : State) : State := { s with table := writeTable s.table s.ti s.w }

/-- gen_commit before the last entry: on to entry `TI` + 1. -/
def nextEntry (s : State) : State :=
  { s with w := highOctet (s.ti + 1#8), ti := s.ti + 1#8, rk := 0 }

/-- gen_commit on the last entry: `TVALID` ← 1, and the fold that triggered the generation goes on, or IDLE. -/
def finishGen (s : State) : State :=
  if s.op = .crc16PolyFold then enterFold (publishTable s)
  else becomeIdle (publishTable s)

/-- gen_commit: `TABLE[TI]` ← `W`, then the next entry or the end of the generation. -/
def genCommit (s : State) : State :=
  if s.ti.toNat < 255 then nextEntry (commitEntry s) else finishGen (commitEntry s)

/-- The enabled micro-step of GEN. -/
def genStep (s : State) : State := if s.rk.val < 8 then genRound s else genCommit s

/-! ## FOLD (R76) -/

/-- fold_byte with the entry read: `ACC` ← trunc_16(`ACC` << 8) ^ e, `IDX` ← `IDX` + 1. -/
def foldEntry (e : U16) (s : State) : State := { s with acc := foldWith s.acc e, idx := s.idx + 1#16 }

/-- fold_byte: one byte of `BUF` through one entry of `TABLE` into `ACC`. -/
def foldByte (s : State) : Host.Outcome State Fault Refusal :=
  match s.buf.read? s.idx.toNat with
  | none => .fault .bufferIndexOutOfRange
  | some b =>
    match readTable s.table (tableIndex s.acc b) with
    | none => .fault .tableEntryUnwritten
    | some e => .next (foldEntry e s)

/-- fold_finish: `RESULT` ← `ACC`. -/
def foldFinish (s : State) : State := deliver s.acc s

/-- The enabled micro-step of FOLD. -/
def foldStep (s : State) : Host.Outcome State Fault Refusal :=
  if s.idx.toNat < s.len.toNat then foldByte s
  else if s.idx = s.len then .next (foldFinish s)
  else .fault .noMicroStepEnabled

/-! ## ACCUM (R90) -/

/-- accum_byte with the byte read: `SUM` ← trunc_32(`SUM` + zext_32(b)), `CSUM` of the new sum. -/
def addByte (b : U8) (s : State) : State :=
  { s with
    sum := s.sum + b.setWidth 32
    csum := neg8 (s.sum + b.setWidth 32).toNat
    idx := s.idx + 1#16 }

/-- accum_byte: one byte of `BUF` into `SUM` and `CSUM`. -/
def accumByte (s : State) : Host.Outcome State Fault Refusal :=
  match s.buf.read? s.idx.toNat with
  | none => .fault .bufferIndexOutOfRange
  | some b => .next (addByte b s)

/-- accum_finish: `RESULT` ← zext_16(`CSUM`). -/
def accumFinish (s : State) : State := deliver (s.csum.setWidth 16) s

/-- The enabled micro-step of ACCUM. -/
def accumStep (s : State) : Host.Outcome State Fault Refusal :=
  if s.idx.toNat < s.len.toNat then accumByte s
  else if s.idx = s.len then .next (accumFinish s)
  else .fault .noMicroStepEnabled

/-! ## The engine -/

/-- The one enabled micro-step of the engine (R20, R122); in IDLE there is none. -/
def engineStep (s : State) : Host.Outcome State Fault Refusal :=
  match s.phase with
  | .idle => .next (waitForHost s)
  | .gen => .next (genStep s)
  | .fold => foldStep s
  | .accum => accumStep s

end Sys2Proof.Machine
end

