-- ==== Sys2Proof/Machine/Checksum.lean ====
section
/-! DEFINITION. The command checksum8_accum (spec/42_checksum8_accum.md). -/

namespace Sys2Proof.Machine

/-- checksum8_accum presented to the block. While a command is in progress it is held and the engine takes its
micro-step (R113, log entry 9). In IDLE, `LEN` > `BUFSZ` is refused (R37); else it is accepted (R51), `BUF` is the
buffer bound at the port (R52), and the block enters ACCUM (R89). The table plays no part (R80). -/
def execChecksum8Accum (len : Nat) (s : State) : Host.Outcome State Fault Refusal :=
  if s.busy then engineStep s
  else if lengthOk len (bufOperand s) then
    .next (enterAccum (takeBuffer (bufOperand s) (latchCommand .checksum8Accum len s)))
  else .refused .lengthExceedsBuffer

end Sys2Proof.Machine
end

