-- ==== Sys2Proof/Machine/PolyFold.lean ====
section
/-! DEFINITION. The command crc16_poly_fold (spec/41_crc16_poly_fold.md). -/

namespace Sys2Proof.Machine

/-- The entry action of crc16_poly_fold (R75): FOLD at once, or GEN first when the table is not valid, whatever
`LEN` (R68). -/
def enterFoldOrGen (s : State) : State := if s.tvalid then enterFold s else enterGen s

/-- crc16_poly_fold presented to the block. While a command is in progress it is held and the engine takes its
micro-step (R113, log entry 9). In IDLE, `LEN` > `BUFSZ` is refused (R37); else it is accepted (R51), `BUF` is the
buffer bound at the port (R52), and the entry action of R75 follows. -/
def execCrc16PolyFold (len : Nat) (s : State) : Host.Outcome State Fault Refusal :=
  if s.busy then engineStep s
  else if lengthOk len (bufOperand s) then
    .next (enterFoldOrGen (takeBuffer (bufOperand s) (latchCommand .crc16PolyFold len s)))
  else .refused .lengthExceedsBuffer

end Sys2Proof.Machine
end

