-- ==== Sys2Proof/Machine/TableGen.lean ====
section
/-! DEFINITION. The command crc16_table_gen (spec/40_crc16_table_gen.md). -/

namespace Sys2Proof.Machine

/-- crc16_table_gen presented to the block. While a command is in progress it is held and the engine takes its
micro-step (R113, log entry 9). In IDLE it is accepted (R51): `RVALID` ← 0, `OP`, `LEN` ← 0; with `TVALID` = 1 it is
complete at once, else the block enters GEN (R60), whose 2304 micro-steps (R61) write the table. It binds no buffer
(R56), so `BUF` stays. -/
def execCrc16TableGen (s : State) : Host.Outcome State Fault Refusal :=
  if s.busy then engineStep s
  else if s.tvalid then .next (latchCommand .crc16TableGen 0 s)
  else .next (enterGen (latchCommand .crc16TableGen 0 s))

end Sys2Proof.Machine
end

