-- ==== Sys2Proof/Machine/Dispatch.lean ====
section
/-! DEFINITION. The one match from a command to its meaning. -/

namespace Sys2Proof.Machine

def exec (i : Instr) (s : State) : Host.Outcome State Fault Refusal :=
  match i with
  | .crc16TableGen => Sys2Proof.Machine.execCrc16TableGen s
  | .crc16PolyFold len => Sys2Proof.Machine.execCrc16PolyFold len s
  | .checksum8Accum len => Sys2Proof.Machine.execChecksum8Accum len s

end Sys2Proof.Machine
end

