-- ==== Sys2Proof/Machine/Step.lean ====
section
/-! DEFINITION. One step of the machine: the order of events of spec/60_exceptions.md R97. -/

namespace Sys2Proof.Machine

/-- One step (R97): reset wins over everything; else a busy engine takes its one enabled micro-step and a word at
the port waits (R113); else a presented word is decoded (R51), refused if reserved (R49), and its command runs;
else the block waits for the host. -/
def step (s : State) : Host.Outcome State Fault Refusal :=
  if s.resetLine then .next (takeReset s)
  else if s.busy then engineStep s
  else
    match portWord s with
    | none => .next (waitForHost s)
    | some c =>
      match decode c with
      | .reserved why => .refused (.reservedCommand why)
      | .cmd i => exec i s

/-- `s` with the command word of the opcode table's bits presented where the next step accepts it (log entry 8). -/
def State.withFetchWord (s : State) (nbits w : Nat) : State := placeTableWord s nbits w

end Sys2Proof.Machine
end

