-- ==== Sys2Proof/Machine/Assembly.lean ====
section
/-! DEFINITION. The assembly syntax of commands (spec/30_encoding.md R53): one command per line, a mnemonic or its
alias and, for two of them, a decimal or 0x hexadecimal length. Lines are lists of characters (log entry 23). -/

namespace Sys2Proof.Machine

/-- The value of a digit in base 16; base 10 uses the first ten. -/
def digitValue (c : Char) : Option Nat :=
  if '0' ≤ c ∧ c ≤ '9' then some (c.toNat - '0'.toNat)
  else if 'a' ≤ c ∧ c ≤ 'f' then some (c.toNat - 'a'.toNat + 10)
  else if 'A' ≤ c ∧ c ≤ 'F' then some (c.toNat - 'A'.toNat + 10)
  else none

/-- Read digits in a base, most significant first. -/
def readDigits (base : Nat) : Nat → List Char → Option Nat
  | acc, [] => some acc
  | acc, c :: cs =>
    match digitValue c with
    | some d => if d < base then readDigits base (acc * base + d) cs else none
    | none => none

/-- An integer as R53 writes it: `0x` and hexadecimal digits, or decimal digits; at least one digit. -/
def readInteger : List Char → Option Nat
  | '0' :: 'x' :: c :: cs => readDigits 16 0 (c :: cs)
  | c :: cs => readDigits 10 0 (c :: cs)
  | [] => none

/-- `<len>`: an integer from 0 to 65535 (R53). -/
def readLen (cs : List Char) : Option Nat :=
  match readInteger cs with
  | some n => if lenFits n then some n else none
  | none => none

/-- Split a line at spaces; several spaces count as one. `cur` is the word being read, last character first. -/
def splitWords : List Char → List Char → List (List Char)
  | cur, [] => if cur = [] then [] else [cur.reverse]
  | cur, c :: cs =>
    if c = ' ' then (if cur = [] then splitWords [] cs else cur.reverse :: splitWords [] cs)
    else splitWords (c :: cur) cs

/-- The spellings of each operation: the mnemonic and its alias (R53). -/
def isTableGenName (w : List Char) : Bool := w = "crc16_table_gen".toList || w = "TGEN".toList

/-- `crc16_poly_fold` or `CRC16`. -/
def isPolyFoldName (w : List Char) : Bool := w = "crc16_poly_fold".toList || w = "CRC16".toList

/-- `checksum8_accum` or `CSUM8`. -/
def isChecksumName (w : List Char) : Bool := w = "checksum8_accum".toList || w = "CSUM8".toList

/-- A command line of R53, as a command. -/
def assemble (line : List Char) : Option Instr :=
  match splitWords [] line with
  | [name] => if isTableGenName name then some .crc16TableGen else none
  | [name, arg] =>
    match readLen arg with
    | none => none
    | some len =>
      if isPolyFoldName name then some (.crc16PolyFold len)
      else if isChecksumName name then some (.checksum8Accum len)
      else none
  | _ => none

end Sys2Proof.Machine
end

