-- ==== Sys2Proof/Machine/Command.lean ====
section
/-! DEFINITION. The command-level semantics, from before acceptance to the return to IDLE: what the spec writes as
`exec(...)` in R60, R75 and R89. They are normative; the micro-steps of `step` are one refinement of them (spec/70
R119, spec/92 D14), and the obligation CommandRefinement states that the two agree. -/

namespace Sys2Proof.Machine

/-- `for i in 0 .. n-1 (ascending): TABLE[i] <- entry(i)` (R60). -/
def tableLoop : Nat → Table → Table
  | 0, t => t
  | n + 1, t => writeTable (tableLoop n t) (BitVec.ofNat 8 n) (entry (BitVec.ofNat 8 n))

/-- The loop over all `TSIZE` = 256 entries (R60). Irreducible, so that no proof unrolls it; `wholeTable_full` says
what it leaves. -/
@[irreducible] def wholeTable (t : Table) : Table := tableLoop Config.tsize t

/-- The registers after a generation that leaves the table `t`. `W`, `TI` and `RK` hold what the last gen_commit
leaves in them (R61); no rule reads them before they are written again (R17, log entry 21). -/
def generated (t : Table) (s : State) : State :=
  { s with table := t, tvalid := true, w := entry 255#8, ti := 255#8, rk := 8 }

/-- The generation, where it is still to be done (R60, R75). -/
def generateTable (s : State) : State :=
  if s.tvalid then s else generated (wholeTable s.table) s

/-- exec(crc16_table_gen) (R60). -/
def commandTableGen (s : State) : State := generateTable (latchCommand .crc16TableGen 0 s)

/-- The registers after the loop of R75 over `len` bytes: `ACC` holds the CRC, `IDX` = `LEN`. -/
def afterFold (crc : U16) (len : Nat) (s : State) : State := { s with acc := crc, idx := lenOperand len }

/-- exec(crc16_poly_fold, LEN = L, BUF = B) (R75), B the buffer bound at the port. -/
def commandPolyFold (len : Nat) (s : State) : State :=
  deliver (crc16 (bufOperand s) len)
    (afterFold (crc16 (bufOperand s) len) len
      (generateTable (takeBuffer (bufOperand s) (latchCommand .crc16PolyFold len s))))

/-- The registers after the loop of R89 over `len` bytes. -/
def afterAccum (sum : Nat) (csum : U8) (len : Nat) (s : State) : State :=
  { s with sum := BitVec.ofNat 32 sum, csum := csum, idx := lenOperand len }

/-- exec(checksum8_accum, LEN = L, BUF = B) (R89), B the buffer bound at the port. -/
def commandChecksum (len : Nat) (s : State) : State :=
  deliver ((checksum8 (bufOperand s) len).setWidth 16)
    (afterAccum (byteSum (bufOperand s) len) (checksum8 (bufOperand s) len) len
      (takeBuffer (bufOperand s) (latchCommand .checksum8Accum len s)))

/-- What a whole command does to an idle block, for a command that is not refused. -/
def command (i : Instr) (s : State) : State :=
  match i with
  | .crc16TableGen => commandTableGen s
  | .crc16PolyFold len => commandPolyFold len s
  | .checksum8Accum len => commandChecksum len s

/-- The command is not refused when an idle block meets it: its length does not exceed the bound buffer (R37). -/
def acceptable (i : Instr) (s : State) : Bool :=
  match i with
  | .crc16TableGen => true
  | .crc16PolyFold len => lengthOk len (bufOperand s)
  | .checksum8Accum len => lengthOk len (bufOperand s)

/-- Micro-steps of one generation: 256 entries of 8 rounds and a commit (R61). -/
def genSteps : Nat := Config.tsize * (Config.rounds + 1)

/-- How many micro-steps follow the acceptance of a command (R119). Orientation, not time (log entry 17). -/
def microSteps (i : Instr) (s : State) : Nat :=
  match i with
  | .crc16TableGen => if s.tvalid then 0 else genSteps
  | .crc16PolyFold len => (if s.tvalid then 0 else genSteps) + (len + 1)
  | .checksum8Accum len => len + 1

end Sys2Proof.Machine
end

