-- ==== Sys2Proof/Machine/HostPort.lean ====
section
/-! DEFINITION. The host (spec/70_reset_and_hazards.md R120): its moves, what it sees, runs of the machine, and the
pseudo-operations and script notation of spec/30_encoding.md R54, R55. A host move is not a step of the machine; it
changes only the host's side of the port, and bytes of `BUF` that the block never reads. -/

namespace Sys2Proof.Machine

/-! ## What the host can do -/

/-- Raise the reset event, at any time (R105). The next step is the reset. -/
def hostReset (s : State) : State := { s with resetLine := true }

/-- Bind a buffer for the next command (R52). While a word waits, its buffer must stay as it is (R113, D21), so the
move then does nothing. -/
def hostBind (B : Buffer) (s : State) : State :=
  if s.cmdWord.isSome then s else { s with cmdBuf := B }

/-- Present a command word (R51). At most one word can wait, and it must stay unchanged (R113), so the move does
nothing while one waits. -/
def hostPresent (c : U32) (s : State) : State :=
  if s.cmdWord.isSome then s else { s with cmdWord := some c }

/-- The host's side of the port, whatever the host has put there. -/
def withPort (word : Option U32) (B : Buffer) (s : State) : State := { s with cmdWord := word, cmdBuf := B }

/-- The host may write byte `i` of `BUF`: no command in progress reads it (R43, R114). -/
def hostMayWrite (i : Nat) (s : State) : Bool :=
  !s.busy || s.op = .crc16TableGen || s.len.toNat ≤ i

/-- Change byte `i` of the buffer of the command in progress, where the host's duty allows it (R114). The model
gives the host no move that breaks this duty (log entry 15). DESIGN CHOICE (log entry 28): the byte changes in `BUF`
alone; the buffer bound at the port for the following commands, which R55 keeps, holds its own bytes. -/
def hostWriteByte (i : Nat) (b : U8) (s : State) : State :=
  if hostMayWrite i s then takeBuffer (s.buf.write i b) s else s

/-- What the host can observe (R24): ready, `RVALID`, and `RESULT` while `RVALID` = 1 (R116, U10). -/
structure HostView where
  ready : Bool
  rvalid : Bool
  result : Option U16
  deriving DecidableEq, Repr

/-- The host polls (R96, R120). -/
def observe (s : State) : HostView :=
  { ready := !s.busy, rvalid := s.rvalid, result := if s.rvalid then some s.result else none }

/-! ## Runs -/

/-- `n` steps, stopping at a fault or a refusal. -/
def run : Nat → State → Host.Outcome State Fault Refusal
  | 0, s => .next s
  | n + 1, s =>
    match step s with
    | .next t => run n t
    | .fault r => .fault r
    | .refused r => .refused r

/-- A word waits, a command is in progress or reset is raised: the host that waits for ready goes on waiting. -/
def waiting (s : State) : Bool := s.busy || s.cmdWord.isSome || s.resetLine

/-- Steps until the presented word has been accepted and `PHASE` = IDLE again (R55), at most `n`. -/
def runToReady : Nat → State → Host.Outcome State Fault Refusal
  | 0, s => .next s
  | n + 1, s =>
    if waiting s then
      match step s with
      | .next t => runToReady n t
      | .fault r => .fault r
      | .refused r => .refused r
    else .next s

/-- More steps than any wait takes: a command in progress, the acceptance of a held word, and its command, each at
most 2304 + 65535 + 1 micro-steps (R122). -/
def waitBound : Nat := 2 * (genSteps + 65535 + 1) + 1

/-- Go on from the state an outcome answers, if it is a next state. -/
def andThen (o : Host.Outcome State Fault Refusal) (f : State → Host.Outcome State Fault Refusal) :
    Host.Outcome State Fault Refusal :=
  match o with
  | .next t => f t
  | .fault r => .fault r
  | .refused r => .refused r

/-- The port is not free for the host's next move: an earlier word waits, or the reset event is raised. -/
def portTaken (s : State) : Bool := s.cmdWord.isSome || s.resetLine

/-- The host waits until its port is free. DESIGN CHOICE (log entry 25): the spec says only that at most one word can
wait (R113); a script line or call that finds an earlier word there first waits for that command to be over, and one
that finds reset raised first waits for it to be taken. -/
def waitForPort (s : State) : Host.Outcome State Fault Refusal :=
  if portTaken s then runToReady waitBound s else .next s

/-- Bind a buffer for the following commands (R55), once the port is free (log entry 25). -/
def bindLine (B : Buffer) (s : State) : Host.Outcome State Fault Refusal :=
  andThen (waitForPort s) fun t => .next (hostBind B t)

/-- Present a command, wait until it is accepted and then until `PHASE` = IDLE (R55), once the port is free (log
entry 25). A length above 65535 has no word and exceeds every buffer (log entry 22). -/
def issue (i : Instr) (s : State) : Host.Outcome State Fault Refusal :=
  if i.wellFormed then andThen (waitForPort s) fun t => runToReady waitBound (hostPresent (encode i) t)
  else .refused .lengthExceedsBuffer

/-! ## Pseudo-operations (R54) -/

/-- The value a call returns: `RESULT` if the command completed. -/
def resultOf : Host.Outcome State Fault Refusal → Option U16
  | .next t => (observe t).result
  | .fault _ => none
  | .refused _ => none

/-- `crc16(B, L)`: bind, issue crc16_poly_fold, wait, read `RESULT`. An earlier word at the port is waited for first
(log entry 25). -/
def callCrc16 (B : Buffer) (L : Nat) (s : State) : Option U16 :=
  resultOf (andThen (bindLine B s) (issue (.crc16PolyFold L)))

/-- `checksum8(B, L)`: bind, issue checksum8_accum, wait, read `RESULT[7:0]`. An earlier word at the port is waited for
first (log entry 25). -/
def callChecksum8 (B : Buffer) (L : Nat) (s : State) : Option U8 :=
  (resultOf (andThen (bindLine B s) (issue (.checksum8Accum L)))).map (·.setWidth 8)

/-! ## Host scripts (R55) -/

/-- `<element> = v` of an `expect` line (R55), for the elements of R10 but `RESULT`, which has its own line. -/
inductive ElementIs where
  | table (i : U8) (v : U16)
  | tvalid (v : Bool)
  | w (v : U16)
  | acc (v : U16)
  | sum (v : U32)
  | csum (v : U8)
  | phase (v : Phase)
  | op (v : Op)
  | len (v : U16)
  | idx (v : U16)
  | ti (v : U8)
  | rk (v : Fin 9)
  | rvalid (v : Bool)
  deriving DecidableEq, Repr

/-- A line of a host script. -/
inductive ScriptLine where
  /-- The reset event. -/
  | reset
  /-- `bind [b0, b1, ...]`: these bytes, `BUFSZ` their count. -/
  | bind (bytes : List U8)
  /-- `bind [b0, ...] size n`: `n` bytes, those not listed arbitrary. -/
  | bindSize (bytes : List U8) (n : Nat)
  /-- A command line: present, wait for acceptance, wait for IDLE. -/
  | command (i : Instr)
  /-- `expect RESULT = v`. -/
  | expectResult (v : U16)
  /-- `expect <element> = v`: about model state, not something a host can observe. -/
  | expectElement (e : ElementIs)
  deriving DecidableEq, Repr

/-- The `n` bytes of `bind [b0, ...] size n`; the unlisted ones are free values (log entry 16). DESIGN CHOICE (log
entry 26): of a list longer than `n`, of which the spec says nothing, the first `n` bytes are taken. -/
def sizedBytes (bytes : List U8) (n : Nat) : List U8 :=
  (bytes ++ (List.range' bytes.length (n - bytes.length)).map Config.unlistedByte).take n

/-- What a line does. An `expect` line does nothing: it is a statement, which `lineMeets` reads. -/
def runLine (l : ScriptLine) (s : State) : Host.Outcome State Fault Refusal :=
  match l with
  | .reset => step (hostReset s)
  | .bind bytes => bindLine (Buffer.ofBytes bytes) s
  | .bindSize bytes n => bindLine (Buffer.ofBytes (sizedBytes bytes n)) s
  | .command i => issue i s
  | .expectResult _ => .next s
  | .expectElement _ => .next s

/-- The lines of a script in order (R55). -/
def runScript : List ScriptLine → State → Host.Outcome State Fault Refusal
  | [], s => .next s
  | l :: ls, s =>
    match runLine l s with
    | .next t => runScript ls t
    | .fault r => .fault r
    | .refused r => .refused r

/-- `expect RESULT = v`: `RVALID` = 1 and `RESULT` = v (R55). -/
def expectResult (v : U16) (s : State) : Bool := s.rvalid && s.result = v

/-- `<element> = v`. An entry of `TABLE` that holds no value equals none. -/
def elementHolds (e : ElementIs) (s : State) : Bool :=
  match e with
  | .table i v => readTable s.table i = some v
  | .tvalid v => s.tvalid = v
  | .w v => s.w = v
  | .acc v => s.acc = v
  | .sum v => s.sum = v
  | .csum v => s.csum = v
  | .phase v => s.phase = v
  | .op v => s.op = v
  | .len v => s.len = v
  | .idx v => s.idx = v
  | .ti v => s.ti = v
  | .rk v => s.rk = v
  | .rvalid v => s.rvalid = v

/-- What an `expect` line states of the state it stands at; the other lines state nothing. -/
def lineMeets (l : ScriptLine) (s : State) : Bool :=
  match l with
  | .reset => true
  | .bind _ => true
  | .bindSize _ _ => true
  | .command _ => true
  | .expectResult v => expectResult v s
  | .expectElement e => elementHolds e s

/-- The script runs to its end and each of its `expect` lines is true where it stands (R55). DESIGN CHOICE (log entry
27): a script that is refused or faults on the way does not meet its `expect` lines. -/
def scriptMeets : List ScriptLine → State → Bool
  | [], _ => true
  | l :: ls, s =>
    lineMeets l s &&
      match runLine l s with
      | .next t => scriptMeets ls t
      | .fault _ => false
      | .refused _ => false

/-- A run of a script is over: every line performed (by `runScript`) and `PHASE` = IDLE (R121). -/
def finished (s : State) : Bool := !s.busy

end Sys2Proof.Machine
end

