-- ==== Sys2Proof/Safety.lean ====
section
/-! DEFINITION. The terms claims use: outcomes, the invariants of spec/10_state.md R27, and safe runs. -/

namespace Sys2Proof.Machine

/-- The next state of an outcome, if it is one. -/
def nextOf? : Host.Outcome State Fault Refusal → Option State
  | .next t => some t
  | .fault _ => none
  | .refused _ => none

/-- The outcome is a fault. -/
def isFault : Host.Outcome State Fault Refusal → Bool
  | .next _ => false
  | .fault _ => true
  | .refused _ => false

/-- The reason of a refusal. -/
def refusalOf? : Host.Outcome State Fault Refusal → Option Refusal
  | .next _ => none
  | .fault _ => none
  | .refused r => some r

/-- Every entry of `TABLE` holds its value (R59, R63). -/
def TableFull (t : Table) : Prop := ∀ i : U8, readTable t i = some (entry i)

/-- PHASE = GEN (R27 c): `TVALID` = 0, the entries below `TI` are generated, `W` is the intermediate value of entry
`TI` after `RK` rounds; and the operation is one that generates, with the contract of R37 for the fold to come. -/
structure GenInv (s : State) : Prop where
  notValid : s.tvalid = false
  below : ∀ j : U8, j.toNat < s.ti.toNat → readTable s.table j = some (entry j)
  working : s.w = crcRounds s.rk.val (highOctet s.ti)
  op : s.op = .crc16TableGen ∨ (s.op = .crc16PolyFold ∧ s.len.toNat ≤ s.buf.size.toNat)

/-- PHASE in FOLD, ACCUM (R27 d, R37): `IDX` ≤ `LEN` ≤ `BUFSZ`. -/
structure ByteLoopInv (s : State) : Prop where
  idx : s.idx.toNat ≤ s.len.toNat
  len : s.len.toNat ≤ s.buf.size.toNat

/-- The invariants of R27, (a) to (g), with `OP` the operation in progress (R19) and the canonical form of the two buffers. -/
structure Inv (s : State) : Prop where
  /-- (a) -/
  foldValid : s.phase = .fold → s.tvalid = true
  /-- (b) -/
  table : s.tvalid = true → TableFull s.table
  /-- (c) -/
  gen : s.phase = .gen → GenInv s
  /-- `OP` is the operation in progress (R19), in FOLD -/
  foldOp : s.phase = .fold → s.op = .crc16PolyFold
  /-- `OP` is the operation in progress (R19), in ACCUM -/
  accumOp : s.phase = .accum → s.op = .checksum8Accum
  /-- (d) for FOLD -/
  foldLoop : s.phase = .fold → ByteLoopInv s
  /-- (d) for ACCUM -/
  accumLoop : s.phase = .accum → ByteLoopInv s
  /-- (e) -/
  acc : s.phase = .fold → s.acc = crc16 s.buf s.idx.toNat
  /-- (f) the sum -/
  sum : s.phase = .accum → s.sum.toNat = byteSum s.buf s.idx.toNat
  /-- (f) the checksum, `trunc_8(0x100 - SUM[7:0])` -/
  csum : s.phase = .accum → s.csum = neg8 s.sum.toNat
  /-- (g) -/
  rvalid : s.rvalid = true → s.phase = .idle
  /-- The bytes of `BUF` are in canonical form. -/
  buf : s.buf.wf
  /-- The bytes of the buffer at the port are in canonical form. -/
  cmdBuf : s.cmdBuf.wf

/-- A safe step: no fault. The block raises nothing (R92). -/
def SafeStep (s : State) : Prop := isFault (step s) = false

/-- A safe run: no fault within `n` steps. -/
def SafeRun (n : Nat) (s : State) : Prop := isFault (run n s) = false

end Sys2Proof.Machine
end

