-- ==== Sys2Proof/Certificates/Slice0/Obligations.lean ====
section
/-! DEFINITION. The statements for the provers, from the numbered rules of spec/. `BUF`, `LEN` and the other
elements are written by their names in the spec; log entries are those of notes/assumptions. -/

open Sys2Proof Sys2Proof.Machine

/-! ## Command words (spec/30_encoding.md) -/

/-- The words of spec/95_test_vectors.md section 3.4, V-E1 to V-E14, decode as listed there: the legal ones by R48, the
reserved ones by R49. The names of the reasons and their order are the model's choice (log entry 13). -/
def Obligations.SpecWordsDecode : Prop :=
  decode 0x40000000#32 = .cmd .crc16TableGen ∧
  decode 0x80000000#32 = .cmd (.crc16PolyFold 0) ∧
  decode 0x80000009#32 = .cmd (.crc16PolyFold 9) ∧
  decode 0x8000FFFF#32 = .cmd (.crc16PolyFold 65535) ∧
  decode 0xC0000000#32 = .cmd (.checksum8Accum 0) ∧
  decode 0xC0000003#32 = .cmd (.checksum8Accum 3) ∧
  decode 0xC000FFFF#32 = .cmd (.checksum8Accum 65535) ∧
  decode 0x00000000#32 = .reserved .opZero ∧
  decode 0x3FFFFFFF#32 = .reserved .opZero ∧
  decode 0x40000001#32 = .reserved .tableGenWithLen ∧
  decode 0x7FFF0000#32 = .reserved .zeroFieldNotZero ∧
  decode 0x80010000#32 = .reserved .zeroFieldNotZero ∧
  decode 0xBFFF0000#32 = .reserved .zeroFieldNotZero ∧
  decode 0xFFFFFFFF#32 = .reserved .zeroFieldNotZero

/-- Decoding the word of a well-formed command gives the command back, with every length (R44 to R48). -/
def Obligations.DecodeEncode : Prop :=
  ∀ i : Instr, i.WellFormed → decode (encode i) = .cmd i

/-- A word that decodes to a command is the word of that command, and the command is well-formed (R47, R48). -/
def Obligations.EncodeDecode : Prop :=
  ∀ (c : U32) (i : Instr), decode c = .cmd i → i.WellFormed ∧ encode i = c

/-- The opcode map of R48: a word selects an operation exactly when it matches that row, its length is bits 15:0, no
word matches two rows, and there are 131073 legal words. -/
def Obligations.OpcodeRows : Prop :=
  (∀ c : U32, decode c = .cmd .crc16TableGen ↔ c &&& 0xFFFFFFFF#32 = 0x40000000#32) ∧
  (∀ (c : U32) (len : Nat), decode c = .cmd (.crc16PolyFold len) ↔
    c &&& 0xFFFF0000#32 = 0x80000000#32 ∧ len = (c.extractLsb' 0 16).toNat) ∧
  (∀ (c : U32) (len : Nat), decode c = .cmd (.checksum8Accum len) ↔
    c &&& 0xFFFF0000#32 = 0xC0000000#32 ∧ len = (c.extractLsb' 0 16).toNat) ∧
  (∀ c : U32,
    ¬(c &&& 0xFFFFFFFF#32 = 0x40000000#32 ∧ c &&& 0xFFFF0000#32 = 0x80000000#32) ∧
    ¬(c &&& 0xFFFFFFFF#32 = 0x40000000#32 ∧ c &&& 0xFFFF0000#32 = 0xC0000000#32) ∧
    ¬(c &&& 0xFFFF0000#32 = 0x80000000#32 ∧ c &&& 0xFFFF0000#32 = 0xC0000000#32)) ∧
  {c : U32 | ∃ i, decode c = .cmd i}.ncard = 131073

/-- R49: the words that match no row of R48 are the reserved ones, they are exactly those with `OP` = 0b00, with
`ZERO` not 0, or with `OP` = 0b01 and `LEN` not 0, and the model refuses a reserved word when it is presented. -/
def Obligations.ReservedWords : Prop :=
  (∀ c : U32, (∃ why, decode c = .reserved why) ↔
    c &&& 0xFFFFFFFF#32 ≠ 0x40000000#32 ∧ c &&& 0xFFFF0000#32 ≠ 0x80000000#32 ∧
      c &&& 0xFFFF0000#32 ≠ 0xC0000000#32) ∧
  (∀ c : U32, (∃ why, decode c = .reserved why) ↔
    c.extractLsb' 30 2 = 0b00#2 ∨ c.extractLsb' 16 14 ≠ 0#14 ∨
      (c.extractLsb' 30 2 = 0b01#2 ∧ c.extractLsb' 0 16 ≠ 0#16)) ∧
  (∀ (s : State) (c : U32) (why : Reserved), s.resetLine = false → s.phase = .idle → s.cmdWord = some c →
    decode c = .reserved why → step s = .refused (.reservedCommand why))

/-- The command lines of R53, by mnemonic and by alias, at the ends of the length's range. That hexadecimal digits may
be of either case is the model's choice (`0xFfFf`, log entry 23). -/
def Obligations.AssemblyLines : Prop :=
  assemble "crc16_table_gen".toList = some .crc16TableGen ∧
  assemble "TGEN".toList = some .crc16TableGen ∧
  assemble "crc16_poly_fold 0".toList = some (.crc16PolyFold 0) ∧
  assemble "CRC16 0xFfFf".toList = some (.crc16PolyFold 65535) ∧
  assemble "checksum8_accum   65535".toList = some (.checksum8Accum 65535) ∧
  assemble "CSUM8 0x10".toList = some (.checksum8Accum 16) ∧
  assemble "CSUM8 65536".toList = none ∧
  assemble "CRC16".toList = none

/-! ## Steps (spec/30_encoding.md R51, spec/60_exceptions.md R97) -/

/-- When the word at the port decodes to a command, a step is `exec` of it: in IDLE its acceptance, in another PHASE
the engine's micro-step while the command is held. Reset is the one thing a step does around `exec` (R51, R97). That
`exec` of a held command is written as the engine's micro-step is the model's reading (log entry 9). -/
def Obligations.StepRunsDecoded : Prop :=
  ∀ (s : State) (c : U32) (i : Instr), s.resetLine = false → s.cmdWord = some c → decode c = .cmd i →
    step s = exec i s

/-- `withFetchWord` puts a legal word where the next step accepts it: the next step runs it and answers a next state
(the model's own placement, log entry 8). -/
def Obligations.FetchWordRuns : Prop :=
  ∀ (s : State) (c : U32) (i : Instr), decode c = .cmd i →
    decodeTableWord 32 c.toNat = some i ∧
    step (s.withFetchWord 32 c.toNat) = exec i (s.withFetchWord 32 c.toNat) ∧
    ∃ t, exec i (s.withFetchWord 32 c.toNat) = .next t

/-- R97, the order of events: reset wins over everything; otherwise, in a PHASE other than IDLE, the engine's one
micro-step is all that happens and a command at the port waits; otherwise a presented command is met, and a reserved
word is refused as such whatever the buffer, a legal one never. Two clauses say what the model chose: the exact state
after the reset step (log entries 1, 2, 4, 6 and 24), and that an idle block with no word at the port stays as it is
(log entry 7). -/
def Obligations.EventPriority : Prop :=
  ∀ s : State,
    (s.resetLine = true → step s = .next { State.reset with cmdBuf := s.cmdBuf }) ∧
    (s.resetLine = false → s.phase ≠ .idle →
      step s = engineStep s ∧
      ∀ t, engineStep s = .next t → t.cmdWord = s.cmdWord ∧ t.cmdBuf = s.cmdBuf) ∧
    (s.resetLine = false → s.phase = .idle → s.cmdWord = none → step s = .next s) ∧
    (s.resetLine = false → s.phase = .idle → ∀ c, s.cmdWord = some c →
      (∀ why, decode c = .reserved why → step s = .refused (.reservedCommand why)) ∧
      (∀ i, decode c = .cmd i → step s = exec i s ∧ ∀ why, step s ≠ .refused (.reservedCommand why)))

/-! ## Each command whole (spec R60, R75, R89) -/

/-- R60: an idle block accepts crc16_table_gen with the entry action of R60, and the micro-steps that follow end in
IDLE with the whole table generated, `TVALID` = 1, `RESULT` unchanged and `RVALID` = 0; with `TVALID` = 1 it is
complete at once and nothing is written to `TABLE`. The count of 2304 is that of R61. -/
def Obligations.TableGenCommand : Prop :=
  ∀ s : State, s.phase = .idle → s.resetLine = false → (s.tvalid = true → TableFull s.table) →
    ∃ t u, exec .crc16TableGen s = .next t ∧
      (s.tvalid = true →
        t = { s with op := .crc16TableGen, len := 0#16, rvalid := false, cmdWord := none } ∧ u = t) ∧
      (s.tvalid = false →
        t = { s with
          op := .crc16TableGen, len := 0#16, rvalid := false, cmdWord := none
          ti := 0#8, rk := 0, w := 0x0000#16, phase := .gen } ∧
        run 2304 t = .next u) ∧
      u.rvalid = false ∧ u.op = .crc16TableGen ∧ u.len = 0#16 ∧
      TableFull u.table ∧ u.tvalid = true ∧ u.phase = .idle ∧ u.result = s.result

/-- R75: an idle block with `LEN` ≤ `BUFSZ` accepts crc16_poly_fold with the entry action of R75, generates the
table first where `TVALID` = 0, and ends in IDLE with `RESULT` = crc16 of the bound buffer, `RVALID` = 1, the state
left behind that R75 lists, `SUM` and `CSUM` not touched. -/
def Obligations.PolyFoldCommand : Prop :=
  ∀ (s : State) (L : Nat), s.phase = .idle → s.resetLine = false → (s.tvalid = true → TableFull s.table) →
    L ≤ s.cmdBuf.size.toNat →
    ∃ t v u, exec (.crc16PolyFold L) s = .next t ∧
      (s.tvalid = true →
        t = { s with
          op := .crc16PolyFold, len := BitVec.ofNat 16 L, rvalid := false, cmdWord := none, buf := s.cmdBuf
          acc := 0x1D0F#16, idx := 0#16, phase := .fold } ∧ v = t) ∧
      (s.tvalid = false →
        t = { s with
          op := .crc16PolyFold, len := BitVec.ofNat 16 L, rvalid := false, cmdWord := none, buf := s.cmdBuf
          ti := 0#8, rk := 0, w := 0x0000#16, phase := .gen } ∧ run 2304 t = .next v) ∧
      v.phase = .fold ∧ v.acc = 0x1D0F#16 ∧ v.idx = 0#16 ∧ v.tvalid = true ∧
      run (L + 1) v = .next u ∧
      u.result = crc16 s.cmdBuf L ∧ u.rvalid = true ∧ u.phase = .idle ∧
      u.op = .crc16PolyFold ∧ u.len.toNat = L ∧ TableFull u.table ∧ u.tvalid = true ∧
      u.acc = u.result ∧ u.idx.toNat = L ∧ u.sum = s.sum ∧ u.csum = s.csum ∧
      (s.tvalid = true → u.table = s.table)

/-- R89: an idle block with `LEN` ≤ `BUFSZ` accepts checksum8_accum with the entry action of R89 and ends in IDLE
with `RESULT` = zext_16 of the checksum of the bound buffer and `RVALID` = 1; `TABLE`, `TVALID`, `W`, `TI`, `RK` and
`ACC` are not written. -/
def Obligations.ChecksumCommand : Prop :=
  ∀ (s : State) (L : Nat), s.phase = .idle → s.resetLine = false → L ≤ s.cmdBuf.size.toNat →
    ∃ t u, exec (.checksum8Accum L) s = .next t ∧
      t = { s with
        op := .checksum8Accum, len := BitVec.ofNat 16 L, rvalid := false, cmdWord := none, buf := s.cmdBuf
        sum := 0#32, csum := 0#8, idx := 0#16, phase := .accum } ∧
      run (L + 1) t = .next u ∧
      u.result = (checksum8 s.cmdBuf L).setWidth 16 ∧ u.rvalid = true ∧ u.phase = .idle ∧
      u.op = .checksum8Accum ∧ u.len.toNat = L ∧
      u.sum.toNat = byteSum s.cmdBuf L ∧ u.csum = checksum8 s.cmdBuf L ∧
      u.table = s.table ∧ u.tvalid = s.tvalid ∧ u.w = s.w ∧ u.ti = s.ti ∧ u.rk = s.rk ∧ u.acc = s.acc

/-- The micro-step machine refines the command-level semantics (R119, D14): every command an idle block does not
refuse is accepted, and after as many micro-steps as R119 counts the state is the one the command level gives. It is
so with any word and any buffer at the port meanwhile: they wait unchanged (R113). The values `W`, `TI` and `RK` that
a generation leaves are the model's reading of R61 (log entry 21). -/
def Obligations.CommandRefinement : Prop :=
  ∀ (i : Instr) (s : State), i.WellFormed → s.phase = .idle → s.resetLine = false →
    (s.tvalid = true → TableFull s.table) → acceptable i s = true →
    ∃ t, exec i s = .next t ∧ ∀ (x : Option U32) (B : Buffer),
      run (microSteps i s) (withPort x B t) = .next (withPort x B (command i s))

/-- The contract `LEN` ≤ `BUFSZ` (R37): an idle block refuses crc16_poly_fold and checksum8_accum exactly when the
length exceeds the bound buffer, and never crc16_table_gen. -/
def Obligations.LengthContract : Prop :=
  ∀ (s : State) (L : Nat), s.phase = .idle →
    (exec (.crc16PolyFold L) s = .refused .lengthExceedsBuffer ↔ s.cmdBuf.size.toNat < L) ∧
    (exec (.checksum8Accum L) s = .refused .lengthExceedsBuffer ↔ s.cmdBuf.size.toNat < L) ∧
    exec .crc16TableGen s ≠ .refused .lengthExceedsBuffer

/-- A command presented while `PHASE` is not IDLE is not accepted: whichever it is, the engine takes its own
micro-step (R113, R97). That `exec` is written so is the model's reading of the two rules (log entry 9). -/
def Obligations.BusyHoldsCommand : Prop :=
  ∀ (i : Instr) (s : State), s.phase ≠ .idle → exec i s = engineStep s

/-! ## The micro-steps (spec R61, R76, R90) -/

/-- R61: gen_round, gen_commit and its two ends; from entry to GEN the entries are written in ascending order, each
once, and after 2304 micro-steps the whole table is generated and GEN is left. -/
def Obligations.GenMicroSteps : Prop :=
  (∀ s : State, s.phase = .gen → s.rk.val < 8 →
    engineStep s = .next { s with w := crcRound s.w, rk := s.rk + 1 }) ∧
  (∀ s : State, s.phase = .gen → s.rk.val = 8 → s.ti.toNat < 255 →
    engineStep s = .next { s with
      table := writeTable s.table s.ti s.w
      w := (s.ti + 1#8).setWidth 16 <<< 8, ti := s.ti + 1#8, rk := 0 }) ∧
  (∀ s : State, s.phase = .gen → s.rk.val = 8 → s.ti = 255#8 → s.op = .crc16PolyFold →
    engineStep s = .next { s with
      table := writeTable s.table s.ti s.w, tvalid := true
      acc := 0x1D0F#16, idx := 0#16, phase := .fold }) ∧
  (∀ s : State, s.phase = .gen → s.rk.val = 8 → s.ti = 255#8 → s.op ≠ .crc16PolyFold →
    engineStep s = .next { s with table := writeTable s.table s.ti s.w, tvalid := true, phase := .idle }) ∧
  (∀ s : State, s.resetLine = false →
    (∀ k : Nat, k ≤ 255 → ∃ u, run (9 * k) (enterGen s) = .next u ∧
      u.phase = .gen ∧ u.ti.toNat = k ∧ u.rk = 0 ∧ u.tvalid = s.tvalid ∧
      ∀ j : U8, readTable u.table j = if j.toNat < k then some (entry j) else readTable s.table j) ∧
    (∃ u, run 2304 (enterGen s) = .next u ∧ TableFull u.table ∧ u.tvalid = true ∧ u.phase ≠ .gen) ∧
    (∀ n u, n < 2304 → run n (enterGen s) = .next u → u.phase = .gen))

/-- R76: fold_byte and fold_finish; a fold takes `LEN` + 1 micro-steps, after 0 or 2304 in GEN, and leaves `RESULT` =
crc16(BUF, LEN). -/
def Obligations.FoldMicroSteps : Prop :=
  (∀ (s : State) (e : U16), s.phase = .fold → s.idx.toNat < s.len.toNat → s.len.toNat ≤ s.buf.size.toNat →
    readTable s.table (s.acc.extractLsb' 8 8 ^^^ s.buf.byteAt s.idx.toNat) = some e →
    engineStep s = .next { s with acc := (s.acc <<< 8) ^^^ e, idx := s.idx + 1#16 }) ∧
  (∀ s : State, s.phase = .fold → s.idx = s.len →
    engineStep s = .next { s with result := s.acc, rvalid := true, phase := .idle }) ∧
  (∀ s : State, s.resetLine = false → TableFull s.table → s.len.toNat ≤ s.buf.size.toNat →
    (∃ u, run (s.len.toNat + 1) (enterFold s) = .next u ∧ u.phase = .idle ∧ u.rvalid = true ∧
      u.result = crc16 s.buf s.len.toNat) ∧
    (∀ n u, n ≤ s.len.toNat → run n (enterFold s) = .next u → u.phase = .fold) ∧
    (s.len = 0#16 → ∃ u, run 1 (enterFold s) = .next u ∧ u.result = 0x1D0F#16)) ∧
  (∀ s : State, s.resetLine = false → s.op = .crc16PolyFold → s.len.toNat ≤ s.buf.size.toNat →
    ∃ v u, run 2304 (enterGen s) = .next v ∧ v.phase = .fold ∧ run (s.len.toNat + 1) v = .next u ∧
      u.phase = .idle ∧ u.rvalid = true ∧ u.result = crc16 s.buf s.len.toNat)

/-- R90: accum_byte and accum_finish; the operation takes `LEN` + 1 micro-steps and leaves `RESULT[7:0]` =
checksum8(BUF, LEN) and `RESULT[15:8]` = 0. -/
def Obligations.AccumMicroSteps : Prop :=
  (∀ s : State, s.phase = .accum → s.idx.toNat < s.len.toNat → s.len.toNat ≤ s.buf.size.toNat →
    ∃ sum' : U32, sum'.toNat = (s.sum.toNat + (s.buf.byteAt s.idx.toNat).toNat) % 2 ^ 32 ∧
      engineStep s = .next { s with
        sum := sum', csum := BitVec.ofNat 8 (0x100 - sum'.toNat % 256), idx := s.idx + 1#16 }) ∧
  (∀ s : State, s.phase = .accum → s.idx = s.len →
    engineStep s = .next { s with result := s.csum.setWidth 16, rvalid := true, phase := .idle }) ∧
  (∀ s : State, s.resetLine = false → s.len.toNat ≤ s.buf.size.toNat →
    (∃ u, run (s.len.toNat + 1) (enterAccum s) = .next u ∧ u.phase = .idle ∧ u.rvalid = true ∧
      u.result.extractLsb' 0 8 = checksum8 s.buf s.len.toNat ∧ u.result.extractLsb' 8 8 = 0#8) ∧
    (∀ n u, n ≤ s.len.toNat → run n (enterAccum s) = .next u → u.phase = .accum) ∧
    (s.len = 0#16 → ∃ u, run 1 (enterAccum s) = .next u ∧ u.result = 0x0000#16))

/-! ## The pure functions (spec R57 to R88) -/

/-- R57: one round on a 16-bit register, linear over XOR. -/
def Obligations.RoundRule : Prop :=
  (∀ w : U16, (crcRound w).toNat =
    if w.toNat / 2 ^ 15 = 1 then (w.toNat * 2 % 2 ^ 16) ^^^ 0x1021 else w.toNat * 2 % 2 ^ 16) ∧
  (∀ a b : U16, crcRound (a ^^^ b) = crcRound a ^^^ crcRound b) ∧ crcRound 0#16 = 0#16

/-- R64: the properties of the table. -/
def Obligations.TableProperties : Prop :=
  entry 0x00#8 = 0x0000#16 ∧ crcRounds 7 0x0100#16 = 0x8000#16 ∧ entry 0x01#8 = 0x1021#16 ∧
  (∀ a b : U8, entry (a ^^^ b) = entry a ^^^ entry b) ∧
  entry 0x02#8 = 0x2042#16 ∧ entry 0x04#8 = 0x4084#16 ∧ entry 0x08#8 = 0x8108#16 ∧ entry 0x10#8 = 0x1231#16 ∧
  entry 0x20#8 = 0x2462#16 ∧ entry 0x40#8 = 0x48C4#16 ∧ entry 0x80#8 = 0x9188#16 ∧
  (∀ i : U8, entry i =
    (List.range 8).foldl (fun x k => if i.getLsbD k then x ^^^ entry (1#8 <<< k) else x) 0x0000#16) ∧
  (∀ a b : U8, entry a = entry b → a = b) ∧
  tgenTable.toList.foldl (· ^^^ ·) 0#16 = 0#16

/-- R70: one fold step, on the numbers, with the table of R59; a block in FOLD has `TVALID` = 1 and reads that
entry. -/
def Obligations.FoldRule : Prop :=
  (∀ (acc : U16) (b : U8), ∃ h : (acc.toNat / 256) ^^^ b.toNat < 256,
    (fold acc b).toNat = (acc.toNat * 256 % 2 ^ 16) ^^^ (tgenTable[(acc.toNat / 256) ^^^ b.toNat]'h).toNat) ∧
  (∀ (s : State) (i : U8), Inv s → s.phase = .fold →
    s.tvalid = true ∧ readTable s.table i = some (tgenTable[i.toNat]'i.isLt))

/-- R79 (e): a fold is eight rounds on the accumulator with the byte in its high octet. -/
def Obligations.FoldIsEightRounds : Prop :=
  ∀ (acc : U16) (b : U8), fold acc b = crcRounds 8 (acc ^^^ (b.setWidth 16 <<< 8))

/-- R79 (b), R91 (e): CRC and checksum of a prefix depend on that prefix alone. -/
def Obligations.PrefixLaw : Prop :=
  ∀ (A B : Buffer) (L : Nat), (∀ k, k < L → A.byteAt k = B.byteAt k) →
    crc16 A L = crc16 B L ∧ checksum8 A L = checksum8 B L

/-- R79 (d): on one byte and on two bytes crc16 is injective, so the order of two different bytes always shows. -/
def Obligations.ShortInputsDistinct : Prop :=
  (∀ a b : U8, crc16 (Buffer.ofBytes [a]) 1 = crc16 (Buffer.ofBytes [b]) 1 → a = b) ∧
  (∀ a b c d : U8, crc16 (Buffer.ofBytes [a, b]) 2 = crc16 (Buffer.ofBytes [c, d]) 2 → a = c ∧ b = d) ∧
  (∀ a b : U8, a ≠ b → crc16 (Buffer.ofBytes [a, b]) 2 ≠ crc16 (Buffer.ofBytes [b, a]) 2)

/-- R33: a message followed by the two bytes of its CRC, high byte first, has CRC 0x0000. -/
def Obligations.AppendedCrcIsZero : Prop :=
  ∀ (A B : Buffer) (L : Nat), (∀ k, k < L → B.byteAt k = A.byteAt k) →
    B.byteAt L = (crc16 A L).extractLsb' 8 8 → B.byteAt (L + 1) = (crc16 A L).extractLsb' 0 8 →
    crc16 B (L + 2) = 0x0000#16

/-- R82: the two forms of the negation agree, the result is the one byte that makes the sum 0 mod 256, and it is 0
exactly when the sum is. -/
def Obligations.NegationForms : Prop :=
  ∀ s : Nat,
    ((neg8 s).toNat : Int) = (-(s : Int)) % 256 ∧
    (neg8 s).toNat = (0x100 - s % 256) % 256 ∧
    (∀ c : U8, (s + c.toNat) % 256 = 0 ↔ c = neg8 s) ∧
    (neg8 s = 0#8 ↔ s % 256 = 0)

/-- R85: the returned byte makes the byte-sum 0 mod 256, for every length. -/
def Obligations.ChecksumCloses : Prop :=
  ∀ (B : Buffer) (L : Nat), (byteSum B L + (checksum8 B L).toNat) % 256 = 0

/-- R86: a receiver that sums the payload and its checksum byte obtains zero, and the checksum is zero exactly when
the byte-sum is 0 mod 256. -/
def Obligations.ReceiverObtainsZero : Prop :=
  (∀ (B B' : Buffer) (L : Nat), (∀ k, k < L → B'.byteAt k = B.byteAt k) → B'.byteAt L = checksum8 B L →
    checksum8 B' (L + 1) = 0#8) ∧
  (∀ (B : Buffer) (L : Nat), checksum8 B L = 0#8 ↔ byteSum B L % 256 = 0)

/-- R88: a sum kept in any width from 8 bits up, read unsigned or as two's complement, has the same remainder mod 256
and gives the same checksum. -/
def Obligations.SumWidthIrrelevant : Prop :=
  ∀ (N : Nat) (B : Buffer) (k : Nat), 8 ≤ N →
    (sumOfWidth N B k).toNat % 256 = byteSum B k % 256 ∧
    (sumOfWidth N B k).toInt % 256 = (byteSum B k : Int) % 256 ∧
    neg8 (sumOfWidth N B k).toNat = checksum8 B k

/-- R81, R87: for a command's lengths the 32-bit sum never wraps; it is at most 16 711 425. -/
def Obligations.SumNeverWraps : Prop :=
  ∀ (B : Buffer) (L : Nat), L ≤ 65535 →
    byteSum B L ≤ 16711425 ∧ (sumOfWidth 32 B L).toNat = byteSum B L

/-! ## Invariants (spec/10_state.md R27) and what follows from them -/

/-- The invariants of R27 hold right after reset. -/
def Obligations.ResetInv : Prop := Inv State.reset

/-- Every step keeps the invariants of R27, in every state that meets them. -/
def Obligations.StepKeepsInv : Prop :=
  ∀ s t : State, Inv s → step s = .next t → Inv t

/-- Every host move keeps them too (R24, R114, R120). -/
def Obligations.HostMovesKeepInv : Prop :=
  ∀ s : State, Inv s →
    Inv (hostReset s) ∧ (∀ c, Inv (hostPresent c s)) ∧ (∀ B : Buffer, B.wf → Inv (hostBind B s)) ∧
    (∀ i b, Inv (hostWriteByte i b s))

/-- Nothing is raised (R92): a step from a state that meets the invariants is never a fault; it is refused only when
an idle block meets a reserved word or a length above the buffer (R37, R49); in every other case it is a next state. -/
def Obligations.NoFault : Prop :=
  ∀ s : State, Inv s →
    (∃ t, step s = .next t) ∨
    (s.resetLine = false ∧ s.phase = .idle ∧ ∃ c, s.cmdWord = some c ∧
      ((∃ why, decode c = .reserved why ∧ step s = .refused (.reservedCommand why)) ∨
       (∃ i, decode c = .cmd i ∧ acceptable i s = false ∧ step s = .refused .lengthExceedsBuffer)))

/-- R122: a busy block whose state meets the invariants returns to IDLE within 2304 + `LEN` + 1 micro-steps, with no
move of the host, and until then every step is one of the engine's. -/
def Obligations.ReachesIdle : Prop :=
  ∀ s : State, Inv s → s.resetLine = false → s.phase ≠ .idle →
    ∃ n t, n ≤ 2304 + s.len.toNat + 1 ∧ run n s = .next t ∧ t.phase = .idle ∧
      ∀ m, m < n → ∃ u, run m s = .next u ∧ u.phase ≠ .idle ∧ step u = engineStep u

/-- R113: a legal word presented to a busy block stays at the port with its buffer until `PHASE` = IDLE; the very next
step is `exec` of it, which accepts it unless its length exceeds its buffer (R37): the word then leaves the port. That
a host move which would replace the word or its buffer does nothing is the model's form of the host's duty (log entry
15). -/
def Obligations.PortWordWaits : Prop :=
  ∀ (s : State) (c : U32) (i : Instr), Inv s → s.resetLine = false → s.phase ≠ .idle → s.cmdWord = some c →
    decode c = .cmd i →
    ∃ n t, run n s = .next t ∧ t.phase = .idle ∧ t.cmdWord = some c ∧ t.cmdBuf = s.cmdBuf ∧
      step t = exec i t ∧
      (acceptable i s = true → ∃ u, step t = .next u ∧ u.cmdWord = none ∧ u.rvalid = false) ∧
      (acceptable i s = false → step t = .refused .lengthExceedsBuffer) ∧
      (∀ m, m < n → ∃ u, run m s = .next u ∧ u.phase ≠ .idle ∧ u.cmdWord = some c ∧ u.cmdBuf = s.cmdBuf ∧
        (∀ d, hostPresent d u = u) ∧ (∀ B, hostBind B u = u))

/-- The life of the table (R12, R63, R109): a step other than reset never takes `TVALID` from 1 to 0 and writes
nothing to a valid table; `TVALID` goes to 1 only in the commit of entry 255; `TABLE` changes only in GEN. -/
def Obligations.TableLifetime : Prop :=
  ∀ s t : State, s.resetLine = false → step s = .next t →
    (s.tvalid = true → t.tvalid = true) ∧
    (Inv s → s.tvalid = true → t.table = s.table) ∧
    (s.tvalid = false → t.tvalid = true → s.phase = .gen ∧ s.rk.val = 8 ∧ s.ti = 255#8) ∧
    (t.table ≠ s.table → s.phase = .gen ∧ s.rk.val = 8)

/-- The block writes no byte of `BUF` (R29): a step keeps `BUF`, unless it accepts a command, which takes the bound
buffer, or is the reset. -/
def Obligations.BufferReadOnly : Prop :=
  ∀ s t : State, s.resetLine = false → step s = .next t →
    (t.buf = s.buf ∧ t.cmdBuf = s.cmdBuf) ∨
    (s.phase = .idle ∧ t.buf = s.cmdBuf ∧ t.cmdBuf = s.cmdBuf ∧
      ∃ c L, s.cmdWord = some c ∧ (decode c = .cmd (.crc16PolyFold L) ∨ decode c = .cmd (.checksum8Accum L)))

/-- The phases a step leads to (R20): IDLE to GEN, FOLD or ACCUM by acceptance, GEN to FOLD or IDLE after entry 255
by `OP`, FOLD and ACCUM to IDLE exactly when `IDX` = `LEN`. -/
def Obligations.PhaseMoves : Prop :=
  ∀ s t : State, s.resetLine = false → step s = .next t →
    (s.phase = .gen →
      (s.rk.val = 8 ∧ s.ti = 255#8 → t.phase = if s.op = .crc16PolyFold then .fold else .idle) ∧
      (¬(s.rk.val = 8 ∧ s.ti = 255#8) → t.phase = .gen)) ∧
    (s.phase = .fold → t.phase = if s.idx = s.len then .idle else .fold) ∧
    (s.phase = .accum → t.phase = if s.idx = s.len then .idle else .accum) ∧
    (s.phase = .idle → s.cmdWord = none → t.phase = .idle) ∧
    (s.phase = .idle → ∀ c i, s.cmdWord = some c → decode c = .cmd i →
      t.phase = match i with
        | .crc16TableGen => if s.tvalid then .idle else .gen
        | .crc16PolyFold _ => if s.tvalid then .fold else .gen
        | .checksum8Accum _ => .accum)

/-! ## Frames -/

/-- What the acceptance of crc16_table_gen leaves (R60): `TABLE`, `TVALID`, `ACC`, `SUM`, `CSUM`, `IDX`, `RESULT`,
every byte of `BUF` and the host's buffer; with `TVALID` = 1 also `W`, `TI`, `RK` and `PHASE`. -/
def Obligations.TableGenFrame : Prop :=
  ∀ s t : State, s.phase = .idle → exec .crc16TableGen s = .next t →
    t.table = s.table ∧ t.tvalid = s.tvalid ∧ t.acc = s.acc ∧ t.sum = s.sum ∧ t.csum = s.csum ∧ t.idx = s.idx ∧
    t.result = s.result ∧ t.buf = s.buf ∧ (∀ a, t.buf.byteAt a = s.buf.byteAt a) ∧ t.cmdBuf = s.cmdBuf ∧
    t.resetLine = s.resetLine ∧
    (s.tvalid = true → t.w = s.w ∧ t.ti = s.ti ∧ t.rk = s.rk ∧ t.phase = .idle)

/-- What the acceptance of crc16_poly_fold leaves (R75): `TABLE`, `TVALID`, `SUM`, `CSUM`, `RESULT` and the host's
buffer, which is now `BUF`, byte for byte; with `TVALID` = 1 also `W`, `TI`, `RK`, with `TVALID` = 0 also `ACC`,
`IDX`. That the element `RESULT` is kept is the model's choice (log entry 20). -/
def Obligations.PolyFoldFrame : Prop :=
  ∀ (s t : State) (L : Nat), s.phase = .idle → exec (.crc16PolyFold L) s = .next t →
    t.table = s.table ∧ t.tvalid = s.tvalid ∧ t.sum = s.sum ∧ t.csum = s.csum ∧ t.result = s.result ∧
    t.buf = s.cmdBuf ∧ (∀ a, t.buf.byteAt a = s.cmdBuf.byteAt a) ∧ t.cmdBuf = s.cmdBuf ∧
    t.resetLine = s.resetLine ∧
    (s.tvalid = true → t.w = s.w ∧ t.ti = s.ti ∧ t.rk = s.rk) ∧
    (s.tvalid = false → t.acc = s.acc ∧ t.idx = s.idx)

/-- What the acceptance of checksum8_accum leaves (R89): `TABLE`, `TVALID`, `W`, `TI`, `RK`, `ACC`, `RESULT` and the
host's buffer, which is now `BUF`, byte for byte. That the element `RESULT` is kept is the model's choice (log entry
20). -/
def Obligations.ChecksumFrame : Prop :=
  ∀ (s t : State) (L : Nat), s.phase = .idle → exec (.checksum8Accum L) s = .next t →
    t.table = s.table ∧ t.tvalid = s.tvalid ∧ t.w = s.w ∧ t.ti = s.ti ∧ t.rk = s.rk ∧ t.acc = s.acc ∧
    t.result = s.result ∧ t.buf = s.cmdBuf ∧ (∀ a, t.buf.byteAt a = s.cmdBuf.byteAt a) ∧ t.cmdBuf = s.cmdBuf ∧
    t.resetLine = s.resetLine

/-- What a micro-step leaves, by PHASE (R61, R76, R90), where none touches `OP`, `LEN`, `BUF` or the host's side:
GEN leaves `SUM`, `CSUM`, `RESULT`, `RVALID`, every entry of `TABLE` but entry `TI` (and that one too until the
commit), and `ACC`, `IDX`, `TVALID` until the last commit; FOLD leaves `TABLE`, `TVALID`, `W`, `TI`, `RK`, `SUM`,
`CSUM`; ACCUM leaves `TABLE`, `TVALID`, `W`, `TI`, `RK`, `ACC`; the two leave `RESULT`, `RVALID` until their last
micro-step. -/
def Obligations.MicroStepFrame : Prop :=
  ∀ s t : State, engineStep s = .next t →
    t.op = s.op ∧ t.len = s.len ∧ t.buf = s.buf ∧ (∀ a, t.buf.byteAt a = s.buf.byteAt a) ∧
    t.cmdWord = s.cmdWord ∧ t.cmdBuf = s.cmdBuf ∧ t.resetLine = s.resetLine ∧
    (s.phase = .gen →
      t.sum = s.sum ∧ t.csum = s.csum ∧ t.result = s.result ∧ t.rvalid = s.rvalid ∧
      (∀ j, j ≠ s.ti ∨ s.rk.val ≠ 8 → readTable t.table j = readTable s.table j) ∧
      (¬(s.rk.val = 8 ∧ s.ti = 255#8) → t.acc = s.acc ∧ t.idx = s.idx ∧ t.tvalid = s.tvalid)) ∧
    (s.phase = .fold →
      t.table = s.table ∧ t.tvalid = s.tvalid ∧ t.w = s.w ∧ t.ti = s.ti ∧ t.rk = s.rk ∧ t.sum = s.sum ∧
      t.csum = s.csum ∧ (s.idx ≠ s.len → t.result = s.result ∧ t.rvalid = s.rvalid)) ∧
    (s.phase = .accum →
      t.table = s.table ∧ t.tvalid = s.tvalid ∧ t.w = s.w ∧ t.ti = s.ti ∧ t.rk = s.rk ∧ t.acc = s.acc ∧
      (s.idx ≠ s.len → t.result = s.result ∧ t.rvalid = s.rvalid))

/-! ## Reset (spec/70_reset_and_hazards.md) -/

/-- The values R26 gives for reset: `PHASE` = IDLE, `TVALID` = 0, `RVALID` = 0, and no entry of `TABLE` holds a
value. Nothing is said of the elements R26 leaves unspecified (log entry 1). -/
def Obligations.ResetValues : Prop :=
  State.reset.phase = .idle ∧ State.reset.tvalid = false ∧ State.reset.rvalid = false ∧
  ∀ i : U8, readTable State.reset.table i = none

/-- R105, R107, R108: in any state, whatever is in progress, the step after the host raises reset leads to IDLE with
`TVALID` = 0 and `RVALID` = 0; the command in progress delivers nothing, the entries already written are gone and a
word at the port is not accepted. The model's choice: no word is then at the port, the buffer that the host has bound
stays bound (log entry 6), and the event is over (log entry 24). -/
def Obligations.ResetAbandons : Prop :=
  ∀ s : State, ∃ t, step (hostReset s) = .next t ∧
    t.phase = .idle ∧ t.tvalid = false ∧ t.rvalid = false ∧ (∀ i : U8, readTable t.table i = none) ∧
    (observe t).ready = true ∧ (observe t).result = none ∧ t.cmdWord = none ∧ t.cmdBuf = s.cmdBuf ∧ t.resetLine = false

/-! ## Results (spec R18, R25, R54, R78, R91, R103, R114, R116) -/

/-- The result register (R18, R116): acceptance clears `RVALID`; `RVALID` is set, and `RESULT` written, only by
fold_finish and accum_finish, which write `ACC` and zext_16(`CSUM`); the host sees `RESULT` exactly while `RVALID`
= 1. That the element `RESULT` keeps its bits when a command is accepted, where R18 says so of crc16_table_gen only,
and in every other step, is the model's choice (log entry 20). -/
def Obligations.ResultDelivery : Prop :=
  (∀ (i : Instr) (s t : State), s.phase = .idle → exec i s = .next t →
    t.rvalid = false ∧ t.result = s.result ∧ (observe t).result = none) ∧
  (∀ s t : State, step s = .next t → s.rvalid = false → t.rvalid = true →
    t.phase = .idle ∧ s.idx = s.len ∧
      ((s.phase = .fold ∧ t.result = s.acc) ∨ (s.phase = .accum ∧ t.result = s.csum.setWidth 16))) ∧
  (∀ s t : State, s.resetLine = false → step s = .next t → s.rvalid = true → t.rvalid = false →
    s.phase = .idle ∧ ∃ c, s.cmdWord = some c) ∧
  (∀ s t : State, s.resetLine = false → step s = .next t → t.result ≠ s.result →
    t.rvalid = true ∧ s.idx = s.len ∧ (s.phase = .fold ∨ s.phase = .accum)) ∧
  (∀ (s : State) (v : U16), (observe s).result = some v ↔ s.rvalid = true ∧ v = s.result)

/-- R25, R78, R91: a result depends on the first `LEN` bytes and `LEN` alone. Two idle blocks that agree on nothing
else, the validity of the table included, deliver the same result. -/
def Obligations.ResultsArePure : Prop :=
  ∀ (s₁ s₂ : State) (L : Nat), Inv s₁ → Inv s₂ → s₁.phase = .idle → s₂.phase = .idle →
    s₁.resetLine = false → s₂.resetLine = false → L ≤ s₁.cmdBuf.size.toNat → L ≤ s₂.cmdBuf.size.toNat →
    (∀ k, k < L → s₁.cmdBuf.byteAt k = s₂.cmdBuf.byteAt k) →
    ∀ i, i = .crc16PolyFold L ∨ i = .checksum8Accum L →
    ∃ t₁ t₂ u₁ u₂, exec i s₁ = .next t₁ ∧ exec i s₂ = .next t₂ ∧
      run (microSteps i s₁) t₁ = .next u₁ ∧ run (microSteps i s₂) t₂ = .next u₂ ∧
      (observe u₁).result = some u₁.result ∧ observe u₁ = observe u₂

/-- R54: the pseudo-operations, on an idle block with nothing at the port: bind, issue, wait for ready and read give
crc16(B, L) and checksum8(B, L). -/
def Obligations.CallsAnswer : Prop :=
  ∀ (s : State) (B : Buffer) (L : Nat), Inv s → waiting s = false → B.wf →
    L ≤ B.size.toNat → callCrc16 B L s = some (crc16 B L) ∧ callChecksum8 B L s = some (checksum8 B L)

/-- R103, R110: after any host script that completes, of any callers' commands in any order, each call gets its own
answer. That the commands of several callers are one sequence at one port, chosen outside the block, is the model's
reading (log entry 18). -/
def Obligations.AnyOrderOfCallers : Prop :=
  ∀ (ls : List ScriptLine) (s t : State) (B : Buffer) (L : Nat), Inv s → waiting s = false →
    runScript ls s = .next t → B.wf → L ≤ B.size.toNat →
    waiting t = false ∧ Inv t ∧
      callCrc16 B L t = some (crc16 B L) ∧ callChecksum8 B L t = some (checksum8 B L)

/-- R114: bytes of `BUF` at `LEN` and above may change freely while the block is busy: the next micro-step is the
same but for that byte. That the byte changes in `BUF` alone, not in the buffer bound at the port, is the model's choice
(log entry 28). -/
def Obligations.UnreadBytesMayChange : Prop :=
  ∀ (s : State) (i : Nat) (b : U8), Inv s → s.phase ≠ .idle → s.len.toNat ≤ i →
    ∃ t, engineStep s = .next t ∧
      engineStep (hostWriteByte i b s) = .next (takeBuffer (hostWriteByte i b s).buf t)

/-- R55, the lines of a host script, at a ready block: `reset` is the reset event, and the buffer bound before it is
still bound (the model's choice, log entry 6); `bind` binds these bytes, with `size n` a buffer of `n` bytes that
begins with them; a command line leaves the state that the whole command gives, and is refused where the length exceeds
the buffer; an `expect` line states `RVALID` = 1 and `RESULT` = v, or the value of an element, each of R10. Two clauses
say what the model chose and R55 does not: the values of `W`, `TI` and `RK` that a generation leaves in `command i s`
(log entry 21), and that an `expect` line, true or false, leaves the state as it is (log entry 27). -/
def Obligations.ScriptLines : Prop :=
  ∀ s : State, Inv s → waiting s = false →
    (∃ t, runLine .reset s = .next t ∧ t.phase = .idle ∧ t.tvalid = false ∧ t.rvalid = false ∧ t.cmdBuf = s.cmdBuf) ∧
    (∀ bytes : List U8, bytes.length ≤ 65535 → ∃ t, runLine (.bind bytes) s = .next t ∧
      t.cmdBuf.size.toNat = bytes.length ∧
      (∀ (k : Nat) (h : k < bytes.length), t.cmdBuf.byteAt k = bytes[k]) ∧ t = { s with cmdBuf := t.cmdBuf }) ∧
    (∀ (bytes : List U8) (n : Nat), bytes.length ≤ n → n ≤ 65535 → ∃ t, runLine (.bindSize bytes n) s = .next t ∧
      t.cmdBuf.size.toNat = n ∧
      (∀ (k : Nat) (h : k < bytes.length), t.cmdBuf.byteAt k = bytes[k]) ∧ t = { s with cmdBuf := t.cmdBuf }) ∧
    (∀ i : Instr, i.WellFormed →
      (acceptable i s = true → runLine (.command i) s = .next (command i s) ∧ waiting (command i s) = false) ∧
      (acceptable i s = false → runLine (.command i) s = .refused .lengthExceedsBuffer)) ∧
    (∀ v : U16, runLine (.expectResult v) s = .next s ∧
      (lineMeets (.expectResult v) s = true ↔ s.rvalid = true ∧ s.result = v)) ∧
    (∀ e : ElementIs, runLine (.expectElement e) s = .next s ∧ lineMeets (.expectElement e) s = elementHolds e s) ∧
    (∀ (j : U8) (v : U16), elementHolds (.table j v) s = true ↔ readTable s.table j = some v) ∧
    (∀ v : Bool, elementHolds (.tvalid v) s = true ↔ s.tvalid = v) ∧
    (∀ v : U16, elementHolds (.w v) s = true ↔ s.w = v) ∧
    (∀ v : U16, elementHolds (.acc v) s = true ↔ s.acc = v) ∧
    (∀ v : U32, elementHolds (.sum v) s = true ↔ s.sum = v) ∧
    (∀ v : U8, elementHolds (.csum v) s = true ↔ s.csum = v) ∧
    (∀ v : Phase, elementHolds (.phase v) s = true ↔ s.phase = v) ∧
    (∀ v : Op, elementHolds (.op v) s = true ↔ s.op = v) ∧
    (∀ v : U16, elementHolds (.len v) s = true ↔ s.len = v) ∧
    (∀ v : U16, elementHolds (.idx v) s = true ↔ s.idx = v) ∧
    (∀ v : U8, elementHolds (.ti v) s = true ↔ s.ti = v) ∧
    (∀ v : Fin 9, elementHolds (.rk v) s = true ↔ s.rk = v) ∧
    (∀ v : Bool, elementHolds (.rvalid v) s = true ↔ s.rvalid = v)
end

