-- ==== Sys2Proof/Laws/Memory.lean ====
section
/-! SUPPORT. Memory, buffer and table: read after write, the canonical form and its preservation. -/

namespace Sys2Proof.Machine

/-! ## Bytes by index -/

theorem Memory.read_eq_zero {m : Memory} {i : Nat} (h : ∀ c ∈ m, c.1 ≠ i) : m.read i = 0#8 := by
  induction m with
  | nil => rfl
  | cons c m ih =>
    obtain ⟨a, b⟩ := c
    have ha : a ≠ i := h (a, b) (by simp)
    simp only [Memory.read, ha, if_false]
    exact ih fun c hc => h c (by simp [hc])

theorem Memory.wf_cons {a : Nat} {c : U8} {m : Memory} :
    Memory.wf ((a, c) :: m) ↔ c ≠ 0#8 ∧ (∀ d ∈ m, a < d.1) ∧ m.wf := by
  simp only [Memory.wf, List.map_cons, List.pairwise_cons, List.mem_map, forall_exists_index, and_imp,
    forall_apply_eq_imp_iff₂, List.mem_cons, forall_eq_or_imp]
  tauto

/-- A read after a write: the byte written at its index, every other byte as before. -/
theorem Memory.read_write {m : Memory} (hm : m.wf) (i j : Nat) (b : U8) :
    (m.write i b).read j = if j = i then b else m.read j := by
  induction m with
  | nil =>
    by_cases hb : b = 0#8 <;> by_cases hj : i = j <;> simp [Memory.write, Memory.read, hb, hj]
    all_goals exact fun he => absurd he.symm hj
  | cons c m ih =>
    obtain ⟨a, c⟩ := c
    obtain ⟨-, hlt, hwf⟩ := Memory.wf_cons.mp hm
    have hnone : ∀ k : Nat, k ≤ a → Memory.read m k = 0#8 := fun k hk =>
      Memory.read_eq_zero fun d hd => by have := hlt d hd; omega
    rcases Nat.lt_trichotomy i a with h | h | h
    · have ha : a ≠ i := by omega
      by_cases hj : j = i
      · subst hj
        by_cases hb : b = 0#8 <;> simp [Memory.write, Memory.read, h, hb, ha, hnone j h.le]
      · have hj' : i ≠ j := fun he => hj he.symm
        by_cases hb : b = 0#8 <;> simp [Memory.write, Memory.read, h, hb, hj, hj']
    · subst h
      by_cases hj : j = i
      · subst hj
        by_cases hb : b = 0#8 <;> simp [Memory.write, Memory.read, hb, hnone j le_rfl]
      · have hj' : i ≠ j := fun he => hj he.symm
        by_cases hb : b = 0#8 <;> simp [Memory.write, Memory.read, hb, hj, hj']
    · have h1 : ¬ i < a := by omega
      have h2 : i ≠ a := by omega
      simp only [Memory.write, h1, h2, if_false, Memory.read, ih hwf]
      by_cases hj : a = j
      · have : j ≠ i := by omega
        simp [hj, this]
      · simp [hj]

theorem Memory.mem_write {m : Memory} {i : Nat} {b : U8} {d : Host.Cell} (h : d ∈ m.write i b) :
    d ∈ m ∨ d = (i, b) := by
  induction m with
  | nil => unfold Memory.write at h; split at h <;> simp_all
  | cons c m ih =>
    obtain ⟨a, c⟩ := c
    unfold Memory.write at h
    split at h
    · split at h <;> simp_all; tauto
    · split at h
      · split at h <;> simp_all; tauto
      · rcases List.mem_cons.mp h with rfl | h
        · simp
        · rcases ih h with h | h <;> simp [h]

/-- Every write keeps the canonical form. -/
theorem Memory.write_wf {m : Memory} (hm : m.wf) (i : Nat) (b : U8) : (m.write i b).wf := by
  induction m with
  | nil => by_cases hb : b = 0#8 <;> simp [Memory.write, hb, Memory.wf]
  | cons c m ih =>
    obtain ⟨a, c⟩ := c
    obtain ⟨hc, hlt, hwf⟩ := Memory.wf_cons.mp hm
    rcases Nat.lt_trichotomy i a with h | rfl | h
    · by_cases hb : b = 0#8
      · simpa only [Memory.write, h, hb, if_true] using hm
      · simp only [Memory.write, h, hb, if_true, if_false]
        refine Memory.wf_cons.mpr ⟨hb, fun d hd => ?_, hm⟩
        rcases List.mem_cons.mp hd with rfl | hd
        · exact h
        · exact lt_trans h (hlt d hd)
    · by_cases hb : b = 0#8
      · simpa only [Memory.write, lt_irrefl, hb, if_true, if_false] using hwf
      · simp only [Memory.write, lt_irrefl, hb, if_true, if_false]
        exact Memory.wf_cons.mpr ⟨hb, hlt, hwf⟩
    · have h1 : ¬ i < a := by omega
      have h2 : i ≠ a := by omega
      simp only [Memory.write, h1, h2, if_false]
      refine Memory.wf_cons.mpr ⟨hc, fun d hd => ?_, ih hwf⟩
      rcases Memory.mem_write hd with hd | rfl
      · exact hlt d hd
      · exact h

theorem Memory.mem_ofBytesFrom {bytes : List U8} {k : Nat} {d : Host.Cell} (h : d ∈ Memory.ofBytesFrom k bytes) :
    k ≤ d.1 ∧ d.1 < k + bytes.length := by
  induction bytes generalizing k with
  | nil => simp [Memory.ofBytesFrom] at h
  | cons b bs ih =>
    have tail : d ∈ Memory.ofBytesFrom (k + 1) bs → k ≤ d.1 ∧ d.1 < k + (b :: bs).length := fun h => by
      have := ih h; simp; omega
    unfold Memory.ofBytesFrom at h
    split at h
    · exact tail h
    · rcases List.mem_cons.mp h with rfl | h
      · simp
      · exact tail h

theorem Memory.ofBytesFrom_wf (k : Nat) (bytes : List U8) : (Memory.ofBytesFrom k bytes).wf := by
  induction bytes generalizing k with
  | nil => simp [Memory.ofBytesFrom, Memory.wf]
  | cons b bs ih =>
    by_cases hb : b = 0#8
    · simpa only [Memory.ofBytesFrom, hb, if_true] using ih (k + 1)
    · simp only [Memory.ofBytesFrom, hb, if_false]
      exact Memory.wf_cons.mpr ⟨hb, fun d hd => by have := Memory.mem_ofBytesFrom hd; omega, ih (k + 1)⟩

theorem Memory.read_ofBytesFrom (bytes : List U8) (k i : Nat) :
    (Memory.ofBytesFrom k bytes).read (k + i) = bytes.getD i 0#8 := by
  induction bytes generalizing k i with
  | nil => simp [Memory.ofBytesFrom, Memory.read]
  | cons b bs ih =>
    cases i with
    | zero =>
      by_cases hb : b = 0#8
      · simp only [Memory.ofBytesFrom, hb, if_true]
        exact Memory.read_eq_zero fun d hd => by have := Memory.mem_ofBytesFrom hd; omega
      · simp [Memory.ofBytesFrom, hb, Memory.read]
    | succ i =>
      have hk : k + (i + 1) = k + 1 + i := by omega
      by_cases hb : b = 0#8
      · simp only [Memory.ofBytesFrom, hb, if_true, hk, ih]; simp
      · have hne : k ≠ k + 1 + i := by omega
        simp only [Memory.ofBytesFrom, hb, if_false, Memory.read, hk, hne, ih]; simp

/-! ## The buffer -/

@[simp] theorem Buffer.empty_wf : Buffer.empty.wf := by decide

/-- `MemRead(BUF, i, 1)` answers a value exactly below `BUFSZ`. -/
theorem Buffer.read?_eq (B : Buffer) (i : Nat) :
    B.read? i = if i < B.size.toNat then some (B.byteAt i) else none := rfl

theorem Buffer.read?_of_lt {B : Buffer} {i : Nat} (h : i < B.size.toNat) : B.read? i = some (B.byteAt i) :=
  if_pos h

@[simp] theorem Buffer.write_size (B : Buffer) (i : Nat) (b : U8) : (B.write i b).size = B.size := by
  unfold Buffer.write; split <;> rfl

theorem Buffer.write_wf {B : Buffer} (h : B.wf) (i : Nat) (b : U8) : (B.write i b).wf := by
  unfold Buffer.write
  split
  · refine ⟨Memory.write_wf h.1 i b, fun d hd => ?_⟩
    rcases Memory.mem_write hd with hd | rfl
    · exact h.2 d hd
    · assumption
  · exact h

theorem Buffer.byteAt_write {B : Buffer} (h : B.wf) (i j : Nat) (b : U8) (hi : i < B.size.toNat) :
    (B.write i b).byteAt j = if j = i then b else B.byteAt j := by
  simp only [Buffer.write, hi, if_true, Buffer.byteAt, Memory.read_write h.1]

theorem Buffer.byteAt_write_of_ne {B : Buffer} (h : B.wf) {i j : Nat} (b : U8) (hij : j ≠ i) :
    (B.write i b).byteAt j = B.byteAt j := by
  by_cases hi : i < B.size.toNat
  · rw [Buffer.byteAt_write h i j b hi, if_neg hij]
  · simp [Buffer.write, hi]

theorem Buffer.ofBytes_size (bytes : List U8) (h : bytes.length ≤ 65535) :
    (Buffer.ofBytes bytes).size.toNat = bytes.length := by
  simp only [Buffer.ofBytes, List.length_take, BitVec.toNat_ofNat]; omega

theorem Buffer.ofBytes_wf (bytes : List U8) : (Buffer.ofBytes bytes).wf := by
  refine ⟨Memory.ofBytesFrom_wf 0 _, fun d hd => ?_⟩
  have := Memory.mem_ofBytesFrom hd
  simp only [Buffer.ofBytes, List.length_take, BitVec.toNat_ofNat] at *; omega

theorem Buffer.byteAt_ofBytes (bytes : List U8) (h : bytes.length ≤ 65535) (i : Nat) :
    (Buffer.ofBytes bytes).byteAt i = bytes.getD i 0#8 := by
  have := Memory.read_ofBytesFrom bytes 0 i
  simpa [Buffer.byteAt, Buffer.ofBytes, List.take_of_length_le h] using this

theorem bufferOfAtLeast_wf {B : Buffer} (h : B.wf) (len : Nat) : (bufferOfAtLeast B len).wf := by
  unfold bufferOfAtLeast; split
  · exact h
  · simp [Buffer.wf, Memory.wf]

/-- The buffer `placeCommand` binds is long enough for the word's length. -/
theorem bufferOfAtLeast_size (B : Buffer) {len : Nat} (h : len < 65536) :
    len ≤ (bufferOfAtLeast B len).size.toNat := by
  unfold bufferOfAtLeast; split
  · assumption
  · simp only [BitVec.toNat_ofNat]; omega

/-! ## The table -/

/-- A table read after a write: the value written at its index, every other entry as before. -/
theorem readTable_writeTable (t : Table) (i j : U8) (v : U16) :
    readTable (writeTable t i v) j = if j = i then some v else readTable t j := by
  by_cases h : j = i
  · subst h; simp [readTable, writeTable]
  · have hne : i.toNat ≠ j.toNat := fun he => h (BitVec.eq_of_toNat_eq he.symm)
    simp [readTable, writeTable, h, Vector.getElem_set_ne _ _ hne]

/-- Tables that answer every read alike are the same table. -/
theorem table_ext {t u : Table} (h : ∀ i : U8, readTable t i = readTable u i) : t = u :=
  Vector.ext fun i hi => by simpa [readTable, Nat.mod_eq_of_lt hi] using h (BitVec.ofNat 8 i)

@[simp] theorem readTable_reset (i : U8) : readTable State.reset.table i = none := by
  simp [readTable, State.reset]

end Sys2Proof.Machine
end

