-- ==== Sys2Proof/Laws/State.lean ====
section
/-! SUPPORT. What each named update of State writes and leaves: one lemma per update and field, true by rfl, so
that no later proof unfolds a record update. -/

namespace Sys2Proof.Machine

/-! ## latchCommand -/

@[simp] theorem latchCommand_table (op : Op) (len : Nat) (s : State) : (latchCommand op len s).table = s.table := rfl
@[simp] theorem latchCommand_tvalid (op : Op) (len : Nat) (s : State) : (latchCommand op len s).tvalid = s.tvalid := rfl
@[simp] theorem latchCommand_w (op : Op) (len : Nat) (s : State) : (latchCommand op len s).w = s.w := rfl
@[simp] theorem latchCommand_acc (op : Op) (len : Nat) (s : State) : (latchCommand op len s).acc = s.acc := rfl
@[simp] theorem latchCommand_sum (op : Op) (len : Nat) (s : State) : (latchCommand op len s).sum = s.sum := rfl
@[simp] theorem latchCommand_csum (op : Op) (len : Nat) (s : State) : (latchCommand op len s).csum = s.csum := rfl
@[simp] theorem latchCommand_phase (op : Op) (len : Nat) (s : State) : (latchCommand op len s).phase = s.phase := rfl
@[simp] theorem latchCommand_op (op : Op) (len : Nat) (s : State) : (latchCommand op len s).op = op := rfl
@[simp] theorem latchCommand_len (op : Op) (len : Nat) (s : State) : (latchCommand op len s).len = lenOperand len := rfl
@[simp] theorem latchCommand_idx (op : Op) (len : Nat) (s : State) : (latchCommand op len s).idx = s.idx := rfl
@[simp] theorem latchCommand_ti (op : Op) (len : Nat) (s : State) : (latchCommand op len s).ti = s.ti := rfl
@[simp] theorem latchCommand_rk (op : Op) (len : Nat) (s : State) : (latchCommand op len s).rk = s.rk := rfl
@[simp] theorem latchCommand_result (op : Op) (len : Nat) (s : State) : (latchCommand op len s).result = s.result := rfl
@[simp] theorem latchCommand_rvalid (op : Op) (len : Nat) (s : State) : (latchCommand op len s).rvalid = false := rfl
@[simp] theorem latchCommand_buf (op : Op) (len : Nat) (s : State) : (latchCommand op len s).buf = s.buf := rfl
@[simp] theorem latchCommand_cmdWord (op : Op) (len : Nat) (s : State) : (latchCommand op len s).cmdWord = none := rfl
@[simp] theorem latchCommand_cmdBuf (op : Op) (len : Nat) (s : State) : (latchCommand op len s).cmdBuf = s.cmdBuf := rfl
@[simp] theorem latchCommand_resetLine (op : Op) (len : Nat) (s : State) : (latchCommand op len s).resetLine = s.resetLine := rfl

/-! ## publishTable -/

@[simp] theorem publishTable_table (s : State) : (publishTable s).table = s.table := rfl
@[simp] theorem publishTable_tvalid (s : State) : (publishTable s).tvalid = true := rfl
@[simp] theorem publishTable_w (s : State) : (publishTable s).w = s.w := rfl
@[simp] theorem publishTable_acc (s : State) : (publishTable s).acc = s.acc := rfl
@[simp] theorem publishTable_sum (s : State) : (publishTable s).sum = s.sum := rfl
@[simp] theorem publishTable_csum (s : State) : (publishTable s).csum = s.csum := rfl
@[simp] theorem publishTable_phase (s : State) : (publishTable s).phase = s.phase := rfl
@[simp] theorem publishTable_op (s : State) : (publishTable s).op = s.op := rfl
@[simp] theorem publishTable_len (s : State) : (publishTable s).len = s.len := rfl
@[simp] theorem publishTable_idx (s : State) : (publishTable s).idx = s.idx := rfl
@[simp] theorem publishTable_ti (s : State) : (publishTable s).ti = s.ti := rfl
@[simp] theorem publishTable_rk (s : State) : (publishTable s).rk = s.rk := rfl
@[simp] theorem publishTable_result (s : State) : (publishTable s).result = s.result := rfl
@[simp] theorem publishTable_rvalid (s : State) : (publishTable s).rvalid = s.rvalid := rfl
@[simp] theorem publishTable_buf (s : State) : (publishTable s).buf = s.buf := rfl
@[simp] theorem publishTable_cmdWord (s : State) : (publishTable s).cmdWord = s.cmdWord := rfl
@[simp] theorem publishTable_cmdBuf (s : State) : (publishTable s).cmdBuf = s.cmdBuf := rfl
@[simp] theorem publishTable_resetLine (s : State) : (publishTable s).resetLine = s.resetLine := rfl

/-! ## deliver -/

@[simp] theorem deliver_table (v : U16) (s : State) : (deliver v s).table = s.table := rfl
@[simp] theorem deliver_tvalid (v : U16) (s : State) : (deliver v s).tvalid = s.tvalid := rfl
@[simp] theorem deliver_w (v : U16) (s : State) : (deliver v s).w = s.w := rfl
@[simp] theorem deliver_acc (v : U16) (s : State) : (deliver v s).acc = s.acc := rfl
@[simp] theorem deliver_sum (v : U16) (s : State) : (deliver v s).sum = s.sum := rfl
@[simp] theorem deliver_csum (v : U16) (s : State) : (deliver v s).csum = s.csum := rfl
@[simp] theorem deliver_phase (v : U16) (s : State) : (deliver v s).phase = .idle := rfl
@[simp] theorem deliver_op (v : U16) (s : State) : (deliver v s).op = s.op := rfl
@[simp] theorem deliver_len (v : U16) (s : State) : (deliver v s).len = s.len := rfl
@[simp] theorem deliver_idx (v : U16) (s : State) : (deliver v s).idx = s.idx := rfl
@[simp] theorem deliver_ti (v : U16) (s : State) : (deliver v s).ti = s.ti := rfl
@[simp] theorem deliver_rk (v : U16) (s : State) : (deliver v s).rk = s.rk := rfl
@[simp] theorem deliver_result (v : U16) (s : State) : (deliver v s).result = v := rfl
@[simp] theorem deliver_rvalid (v : U16) (s : State) : (deliver v s).rvalid = true := rfl
@[simp] theorem deliver_buf (v : U16) (s : State) : (deliver v s).buf = s.buf := rfl
@[simp] theorem deliver_cmdWord (v : U16) (s : State) : (deliver v s).cmdWord = s.cmdWord := rfl
@[simp] theorem deliver_cmdBuf (v : U16) (s : State) : (deliver v s).cmdBuf = s.cmdBuf := rfl
@[simp] theorem deliver_resetLine (v : U16) (s : State) : (deliver v s).resetLine = s.resetLine := rfl

/-! ## enterGen -/

@[simp] theorem enterGen_table (s : State) : (enterGen s).table = s.table := rfl
@[simp] theorem enterGen_tvalid (s : State) : (enterGen s).tvalid = s.tvalid := rfl
@[simp] theorem enterGen_w (s : State) : (enterGen s).w = 0#16 := rfl
@[simp] theorem enterGen_acc (s : State) : (enterGen s).acc = s.acc := rfl
@[simp] theorem enterGen_sum (s : State) : (enterGen s).sum = s.sum := rfl
@[simp] theorem enterGen_csum (s : State) : (enterGen s).csum = s.csum := rfl
@[simp] theorem enterGen_phase (s : State) : (enterGen s).phase = .gen := rfl
@[simp] theorem enterGen_op (s : State) : (enterGen s).op = s.op := rfl
@[simp] theorem enterGen_len (s : State) : (enterGen s).len = s.len := rfl
@[simp] theorem enterGen_idx (s : State) : (enterGen s).idx = s.idx := rfl
@[simp] theorem enterGen_ti (s : State) : (enterGen s).ti = 0#8 := rfl
@[simp] theorem enterGen_rk (s : State) : (enterGen s).rk = 0 := rfl
@[simp] theorem enterGen_result (s : State) : (enterGen s).result = s.result := rfl
@[simp] theorem enterGen_rvalid (s : State) : (enterGen s).rvalid = s.rvalid := rfl
@[simp] theorem enterGen_buf (s : State) : (enterGen s).buf = s.buf := rfl
@[simp] theorem enterGen_cmdWord (s : State) : (enterGen s).cmdWord = s.cmdWord := rfl
@[simp] theorem enterGen_cmdBuf (s : State) : (enterGen s).cmdBuf = s.cmdBuf := rfl
@[simp] theorem enterGen_resetLine (s : State) : (enterGen s).resetLine = s.resetLine := rfl

/-! ## enterFold -/

@[simp] theorem enterFold_table (s : State) : (enterFold s).table = s.table := rfl
@[simp] theorem enterFold_tvalid (s : State) : (enterFold s).tvalid = s.tvalid := rfl
@[simp] theorem enterFold_w (s : State) : (enterFold s).w = s.w := rfl
@[simp] theorem enterFold_acc (s : State) : (enterFold s).acc = Config.seed := rfl
@[simp] theorem enterFold_sum (s : State) : (enterFold s).sum = s.sum := rfl
@[simp] theorem enterFold_csum (s : State) : (enterFold s).csum = s.csum := rfl
@[simp] theorem enterFold_phase (s : State) : (enterFold s).phase = .fold := rfl
@[simp] theorem enterFold_op (s : State) : (enterFold s).op = s.op := rfl
@[simp] theorem enterFold_len (s : State) : (enterFold s).len = s.len := rfl
@[simp] theorem enterFold_idx (s : State) : (enterFold s).idx = 0#16 := rfl
@[simp] theorem enterFold_ti (s : State) : (enterFold s).ti = s.ti := rfl
@[simp] theorem enterFold_rk (s : State) : (enterFold s).rk = s.rk := rfl
@[simp] theorem enterFold_result (s : State) : (enterFold s).result = s.result := rfl
@[simp] theorem enterFold_rvalid (s : State) : (enterFold s).rvalid = s.rvalid := rfl
@[simp] theorem enterFold_buf (s : State) : (enterFold s).buf = s.buf := rfl
@[simp] theorem enterFold_cmdWord (s : State) : (enterFold s).cmdWord = s.cmdWord := rfl
@[simp] theorem enterFold_cmdBuf (s : State) : (enterFold s).cmdBuf = s.cmdBuf := rfl
@[simp] theorem enterFold_resetLine (s : State) : (enterFold s).resetLine = s.resetLine := rfl

/-! ## enterAccum -/

@[simp] theorem enterAccum_table (s : State) : (enterAccum s).table = s.table := rfl
@[simp] theorem enterAccum_tvalid (s : State) : (enterAccum s).tvalid = s.tvalid := rfl
@[simp] theorem enterAccum_w (s : State) : (enterAccum s).w = s.w := rfl
@[simp] theorem enterAccum_acc (s : State) : (enterAccum s).acc = s.acc := rfl
@[simp] theorem enterAccum_sum (s : State) : (enterAccum s).sum = 0#32 := rfl
@[simp] theorem enterAccum_csum (s : State) : (enterAccum s).csum = 0#8 := rfl
@[simp] theorem enterAccum_phase (s : State) : (enterAccum s).phase = .accum := rfl
@[simp] theorem enterAccum_op (s : State) : (enterAccum s).op = s.op := rfl
@[simp] theorem enterAccum_len (s : State) : (enterAccum s).len = s.len := rfl
@[simp] theorem enterAccum_idx (s : State) : (enterAccum s).idx = 0#16 := rfl
@[simp] theorem enterAccum_ti (s : State) : (enterAccum s).ti = s.ti := rfl
@[simp] theorem enterAccum_rk (s : State) : (enterAccum s).rk = s.rk := rfl
@[simp] theorem enterAccum_result (s : State) : (enterAccum s).result = s.result := rfl
@[simp] theorem enterAccum_rvalid (s : State) : (enterAccum s).rvalid = s.rvalid := rfl
@[simp] theorem enterAccum_buf (s : State) : (enterAccum s).buf = s.buf := rfl
@[simp] theorem enterAccum_cmdWord (s : State) : (enterAccum s).cmdWord = s.cmdWord := rfl
@[simp] theorem enterAccum_cmdBuf (s : State) : (enterAccum s).cmdBuf = s.cmdBuf := rfl
@[simp] theorem enterAccum_resetLine (s : State) : (enterAccum s).resetLine = s.resetLine := rfl

/-! ## genRound -/

@[simp] theorem genRound_table (s : State) : (genRound s).table = s.table := rfl
@[simp] theorem genRound_tvalid (s : State) : (genRound s).tvalid = s.tvalid := rfl
@[simp] theorem genRound_w (s : State) : (genRound s).w = crcRound s.w := rfl
@[simp] theorem genRound_acc (s : State) : (genRound s).acc = s.acc := rfl
@[simp] theorem genRound_sum (s : State) : (genRound s).sum = s.sum := rfl
@[simp] theorem genRound_csum (s : State) : (genRound s).csum = s.csum := rfl
@[simp] theorem genRound_phase (s : State) : (genRound s).phase = s.phase := rfl
@[simp] theorem genRound_op (s : State) : (genRound s).op = s.op := rfl
@[simp] theorem genRound_len (s : State) : (genRound s).len = s.len := rfl
@[simp] theorem genRound_idx (s : State) : (genRound s).idx = s.idx := rfl
@[simp] theorem genRound_ti (s : State) : (genRound s).ti = s.ti := rfl
@[simp] theorem genRound_rk (s : State) : (genRound s).rk = s.rk + 1 := rfl
@[simp] theorem genRound_result (s : State) : (genRound s).result = s.result := rfl
@[simp] theorem genRound_rvalid (s : State) : (genRound s).rvalid = s.rvalid := rfl
@[simp] theorem genRound_buf (s : State) : (genRound s).buf = s.buf := rfl
@[simp] theorem genRound_cmdWord (s : State) : (genRound s).cmdWord = s.cmdWord := rfl
@[simp] theorem genRound_cmdBuf (s : State) : (genRound s).cmdBuf = s.cmdBuf := rfl
@[simp] theorem genRound_resetLine (s : State) : (genRound s).resetLine = s.resetLine := rfl

/-! ## nextEntry -/

@[simp] theorem nextEntry_table (s : State) : (nextEntry s).table = s.table := rfl
@[simp] theorem nextEntry_tvalid (s : State) : (nextEntry s).tvalid = s.tvalid := rfl
@[simp] theorem nextEntry_w (s : State) : (nextEntry s).w = highOctet (s.ti + 1#8) := rfl
@[simp] theorem nextEntry_acc (s : State) : (nextEntry s).acc = s.acc := rfl
@[simp] theorem nextEntry_sum (s : State) : (nextEntry s).sum = s.sum := rfl
@[simp] theorem nextEntry_csum (s : State) : (nextEntry s).csum = s.csum := rfl
@[simp] theorem nextEntry_phase (s : State) : (nextEntry s).phase = s.phase := rfl
@[simp] theorem nextEntry_op (s : State) : (nextEntry s).op = s.op := rfl
@[simp] theorem nextEntry_len (s : State) : (nextEntry s).len = s.len := rfl
@[simp] theorem nextEntry_idx (s : State) : (nextEntry s).idx = s.idx := rfl
@[simp] theorem nextEntry_ti (s : State) : (nextEntry s).ti = s.ti + 1#8 := rfl
@[simp] theorem nextEntry_rk (s : State) : (nextEntry s).rk = 0 := rfl
@[simp] theorem nextEntry_result (s : State) : (nextEntry s).result = s.result := rfl
@[simp] theorem nextEntry_rvalid (s : State) : (nextEntry s).rvalid = s.rvalid := rfl
@[simp] theorem nextEntry_buf (s : State) : (nextEntry s).buf = s.buf := rfl
@[simp] theorem nextEntry_cmdWord (s : State) : (nextEntry s).cmdWord = s.cmdWord := rfl
@[simp] theorem nextEntry_cmdBuf (s : State) : (nextEntry s).cmdBuf = s.cmdBuf := rfl
@[simp] theorem nextEntry_resetLine (s : State) : (nextEntry s).resetLine = s.resetLine := rfl

/-! ## addByte -/

@[simp] theorem addByte_table (b : U8) (s : State) : (addByte b s).table = s.table := rfl
@[simp] theorem addByte_tvalid (b : U8) (s : State) : (addByte b s).tvalid = s.tvalid := rfl
@[simp] theorem addByte_w (b : U8) (s : State) : (addByte b s).w = s.w := rfl
@[simp] theorem addByte_acc (b : U8) (s : State) : (addByte b s).acc = s.acc := rfl
@[simp] theorem addByte_sum (b : U8) (s : State) : (addByte b s).sum = s.sum + b.setWidth 32 := rfl
@[simp] theorem addByte_csum (b : U8) (s : State) : (addByte b s).csum = neg8 (s.sum + b.setWidth 32).toNat := rfl
@[simp] theorem addByte_phase (b : U8) (s : State) : (addByte b s).phase = s.phase := rfl
@[simp] theorem addByte_op (b : U8) (s : State) : (addByte b s).op = s.op := rfl
@[simp] theorem addByte_len (b : U8) (s : State) : (addByte b s).len = s.len := rfl
@[simp] theorem addByte_idx (b : U8) (s : State) : (addByte b s).idx = s.idx + 1#16 := rfl
@[simp] theorem addByte_ti (b : U8) (s : State) : (addByte b s).ti = s.ti := rfl
@[simp] theorem addByte_rk (b : U8) (s : State) : (addByte b s).rk = s.rk := rfl
@[simp] theorem addByte_result (b : U8) (s : State) : (addByte b s).result = s.result := rfl
@[simp] theorem addByte_rvalid (b : U8) (s : State) : (addByte b s).rvalid = s.rvalid := rfl
@[simp] theorem addByte_buf (b : U8) (s : State) : (addByte b s).buf = s.buf := rfl
@[simp] theorem addByte_cmdWord (b : U8) (s : State) : (addByte b s).cmdWord = s.cmdWord := rfl
@[simp] theorem addByte_cmdBuf (b : U8) (s : State) : (addByte b s).cmdBuf = s.cmdBuf := rfl
@[simp] theorem addByte_resetLine (b : U8) (s : State) : (addByte b s).resetLine = s.resetLine := rfl

/-! ## placeCommand -/

@[simp] theorem placeCommand_table (c : U32) (s : State) : (placeCommand s c).table = s.table := rfl
@[simp] theorem placeCommand_tvalid (c : U32) (s : State) : (placeCommand s c).tvalid = s.tvalid := rfl
@[simp] theorem placeCommand_w (c : U32) (s : State) : (placeCommand s c).w = s.w := rfl
@[simp] theorem placeCommand_acc (c : U32) (s : State) : (placeCommand s c).acc = s.acc := rfl
@[simp] theorem placeCommand_sum (c : U32) (s : State) : (placeCommand s c).sum = s.sum := rfl
@[simp] theorem placeCommand_csum (c : U32) (s : State) : (placeCommand s c).csum = s.csum := rfl
@[simp] theorem placeCommand_phase (c : U32) (s : State) : (placeCommand s c).phase = .idle := rfl
@[simp] theorem placeCommand_op (c : U32) (s : State) : (placeCommand s c).op = s.op := rfl
@[simp] theorem placeCommand_len (c : U32) (s : State) : (placeCommand s c).len = s.len := rfl
@[simp] theorem placeCommand_idx (c : U32) (s : State) : (placeCommand s c).idx = s.idx := rfl
@[simp] theorem placeCommand_ti (c : U32) (s : State) : (placeCommand s c).ti = s.ti := rfl
@[simp] theorem placeCommand_rk (c : U32) (s : State) : (placeCommand s c).rk = s.rk := rfl
@[simp] theorem placeCommand_result (c : U32) (s : State) : (placeCommand s c).result = s.result := rfl
@[simp] theorem placeCommand_rvalid (c : U32) (s : State) : (placeCommand s c).rvalid = s.rvalid := rfl
@[simp] theorem placeCommand_buf (c : U32) (s : State) : (placeCommand s c).buf = s.buf := rfl
@[simp] theorem placeCommand_cmdWord (c : U32) (s : State) : (placeCommand s c).cmdWord = some c := rfl
@[simp] theorem placeCommand_cmdBuf (c : U32) (s : State) : (placeCommand s c).cmdBuf = bufferOfAtLeast s.cmdBuf (lenField c) := rfl
@[simp] theorem placeCommand_resetLine (c : U32) (s : State) : (placeCommand s c).resetLine = false := rfl

/-! ## takeBuffer -/

@[simp] theorem takeBuffer_table (B : Buffer) (s : State) : (takeBuffer B s).table = s.table := rfl
@[simp] theorem takeBuffer_tvalid (B : Buffer) (s : State) : (takeBuffer B s).tvalid = s.tvalid := rfl
@[simp] theorem takeBuffer_w (B : Buffer) (s : State) : (takeBuffer B s).w = s.w := rfl
@[simp] theorem takeBuffer_acc (B : Buffer) (s : State) : (takeBuffer B s).acc = s.acc := rfl
@[simp] theorem takeBuffer_sum (B : Buffer) (s : State) : (takeBuffer B s).sum = s.sum := rfl
@[simp] theorem takeBuffer_csum (B : Buffer) (s : State) : (takeBuffer B s).csum = s.csum := rfl
@[simp] theorem takeBuffer_phase (B : Buffer) (s : State) : (takeBuffer B s).phase = s.phase := rfl
@[simp] theorem takeBuffer_op (B : Buffer) (s : State) : (takeBuffer B s).op = s.op := rfl
@[simp] theorem takeBuffer_len (B : Buffer) (s : State) : (takeBuffer B s).len = s.len := rfl
@[simp] theorem takeBuffer_idx (B : Buffer) (s : State) : (takeBuffer B s).idx = s.idx := rfl
@[simp] theorem takeBuffer_ti (B : Buffer) (s : State) : (takeBuffer B s).ti = s.ti := rfl
@[simp] theorem takeBuffer_rk (B : Buffer) (s : State) : (takeBuffer B s).rk = s.rk := rfl
@[simp] theorem takeBuffer_result (B : Buffer) (s : State) : (takeBuffer B s).result = s.result := rfl
@[simp] theorem takeBuffer_rvalid (B : Buffer) (s : State) : (takeBuffer B s).rvalid = s.rvalid := rfl
@[simp] theorem takeBuffer_buf (B : Buffer) (s : State) : (takeBuffer B s).buf = B := rfl
@[simp] theorem takeBuffer_cmdWord (B : Buffer) (s : State) : (takeBuffer B s).cmdWord = s.cmdWord := rfl
@[simp] theorem takeBuffer_cmdBuf (B : Buffer) (s : State) : (takeBuffer B s).cmdBuf = s.cmdBuf := rfl
@[simp] theorem takeBuffer_resetLine (B : Buffer) (s : State) : (takeBuffer B s).resetLine = s.resetLine := rfl

/-! ## becomeIdle -/

@[simp] theorem becomeIdle_table (s : State) : (becomeIdle s).table = s.table := rfl
@[simp] theorem becomeIdle_tvalid (s : State) : (becomeIdle s).tvalid = s.tvalid := rfl
@[simp] theorem becomeIdle_w (s : State) : (becomeIdle s).w = s.w := rfl
@[simp] theorem becomeIdle_acc (s : State) : (becomeIdle s).acc = s.acc := rfl
@[simp] theorem becomeIdle_sum (s : State) : (becomeIdle s).sum = s.sum := rfl
@[simp] theorem becomeIdle_csum (s : State) : (becomeIdle s).csum = s.csum := rfl
@[simp] theorem becomeIdle_phase (s : State) : (becomeIdle s).phase = .idle := rfl
@[simp] theorem becomeIdle_op (s : State) : (becomeIdle s).op = s.op := rfl
@[simp] theorem becomeIdle_len (s : State) : (becomeIdle s).len = s.len := rfl
@[simp] theorem becomeIdle_idx (s : State) : (becomeIdle s).idx = s.idx := rfl
@[simp] theorem becomeIdle_ti (s : State) : (becomeIdle s).ti = s.ti := rfl
@[simp] theorem becomeIdle_rk (s : State) : (becomeIdle s).rk = s.rk := rfl
@[simp] theorem becomeIdle_result (s : State) : (becomeIdle s).result = s.result := rfl
@[simp] theorem becomeIdle_rvalid (s : State) : (becomeIdle s).rvalid = s.rvalid := rfl
@[simp] theorem becomeIdle_buf (s : State) : (becomeIdle s).buf = s.buf := rfl
@[simp] theorem becomeIdle_cmdWord (s : State) : (becomeIdle s).cmdWord = s.cmdWord := rfl
@[simp] theorem becomeIdle_cmdBuf (s : State) : (becomeIdle s).cmdBuf = s.cmdBuf := rfl
@[simp] theorem becomeIdle_resetLine (s : State) : (becomeIdle s).resetLine = s.resetLine := rfl

/-! ## commitEntry -/

@[simp] theorem commitEntry_table (s : State) : (commitEntry s).table = writeTable s.table s.ti s.w := rfl
@[simp] theorem commitEntry_tvalid (s : State) : (commitEntry s).tvalid = s.tvalid := rfl
@[simp] theorem commitEntry_w (s : State) : (commitEntry s).w = s.w := rfl
@[simp] theorem commitEntry_acc (s : State) : (commitEntry s).acc = s.acc := rfl
@[simp] theorem commitEntry_sum (s : State) : (commitEntry s).sum = s.sum := rfl
@[simp] theorem commitEntry_csum (s : State) : (commitEntry s).csum = s.csum := rfl
@[simp] theorem commitEntry_phase (s : State) : (commitEntry s).phase = s.phase := rfl
@[simp] theorem commitEntry_op (s : State) : (commitEntry s).op = s.op := rfl
@[simp] theorem commitEntry_len (s : State) : (commitEntry s).len = s.len := rfl
@[simp] theorem commitEntry_idx (s : State) : (commitEntry s).idx = s.idx := rfl
@[simp] theorem commitEntry_ti (s : State) : (commitEntry s).ti = s.ti := rfl
@[simp] theorem commitEntry_rk (s : State) : (commitEntry s).rk = s.rk := rfl
@[simp] theorem commitEntry_result (s : State) : (commitEntry s).result = s.result := rfl
@[simp] theorem commitEntry_rvalid (s : State) : (commitEntry s).rvalid = s.rvalid := rfl
@[simp] theorem commitEntry_buf (s : State) : (commitEntry s).buf = s.buf := rfl
@[simp] theorem commitEntry_cmdWord (s : State) : (commitEntry s).cmdWord = s.cmdWord := rfl
@[simp] theorem commitEntry_cmdBuf (s : State) : (commitEntry s).cmdBuf = s.cmdBuf := rfl
@[simp] theorem commitEntry_resetLine (s : State) : (commitEntry s).resetLine = s.resetLine := rfl

/-! ## foldEntry -/

@[simp] theorem foldEntry_table (e : U16) (s : State) : (foldEntry e s).table = s.table := rfl
@[simp] theorem foldEntry_tvalid (e : U16) (s : State) : (foldEntry e s).tvalid = s.tvalid := rfl
@[simp] theorem foldEntry_w (e : U16) (s : State) : (foldEntry e s).w = s.w := rfl
@[simp] theorem foldEntry_acc (e : U16) (s : State) : (foldEntry e s).acc = foldWith s.acc e := rfl
@[simp] theorem foldEntry_sum (e : U16) (s : State) : (foldEntry e s).sum = s.sum := rfl
@[simp] theorem foldEntry_csum (e : U16) (s : State) : (foldEntry e s).csum = s.csum := rfl
@[simp] theorem foldEntry_phase (e : U16) (s : State) : (foldEntry e s).phase = s.phase := rfl
@[simp] theorem foldEntry_op (e : U16) (s : State) : (foldEntry e s).op = s.op := rfl
@[simp] theorem foldEntry_len (e : U16) (s : State) : (foldEntry e s).len = s.len := rfl
@[simp] theorem foldEntry_idx (e : U16) (s : State) : (foldEntry e s).idx = s.idx + 1#16 := rfl
@[simp] theorem foldEntry_ti (e : U16) (s : State) : (foldEntry e s).ti = s.ti := rfl
@[simp] theorem foldEntry_rk (e : U16) (s : State) : (foldEntry e s).rk = s.rk := rfl
@[simp] theorem foldEntry_result (e : U16) (s : State) : (foldEntry e s).result = s.result := rfl
@[simp] theorem foldEntry_rvalid (e : U16) (s : State) : (foldEntry e s).rvalid = s.rvalid := rfl
@[simp] theorem foldEntry_buf (e : U16) (s : State) : (foldEntry e s).buf = s.buf := rfl
@[simp] theorem foldEntry_cmdWord (e : U16) (s : State) : (foldEntry e s).cmdWord = s.cmdWord := rfl
@[simp] theorem foldEntry_cmdBuf (e : U16) (s : State) : (foldEntry e s).cmdBuf = s.cmdBuf := rfl
@[simp] theorem foldEntry_resetLine (e : U16) (s : State) : (foldEntry e s).resetLine = s.resetLine := rfl

/-! ## withPort -/

@[simp] theorem withPort_table (x : Option U32) (B : Buffer) (s : State) : (withPort x B s).table = s.table := rfl
@[simp] theorem withPort_tvalid (x : Option U32) (B : Buffer) (s : State) : (withPort x B s).tvalid = s.tvalid := rfl
@[simp] theorem withPort_w (x : Option U32) (B : Buffer) (s : State) : (withPort x B s).w = s.w := rfl
@[simp] theorem withPort_acc (x : Option U32) (B : Buffer) (s : State) : (withPort x B s).acc = s.acc := rfl
@[simp] theorem withPort_sum (x : Option U32) (B : Buffer) (s : State) : (withPort x B s).sum = s.sum := rfl
@[simp] theorem withPort_csum (x : Option U32) (B : Buffer) (s : State) : (withPort x B s).csum = s.csum := rfl
@[simp] theorem withPort_phase (x : Option U32) (B : Buffer) (s : State) : (withPort x B s).phase = s.phase := rfl
@[simp] theorem withPort_op (x : Option U32) (B : Buffer) (s : State) : (withPort x B s).op = s.op := rfl
@[simp] theorem withPort_len (x : Option U32) (B : Buffer) (s : State) : (withPort x B s).len = s.len := rfl
@[simp] theorem withPort_idx (x : Option U32) (B : Buffer) (s : State) : (withPort x B s).idx = s.idx := rfl
@[simp] theorem withPort_ti (x : Option U32) (B : Buffer) (s : State) : (withPort x B s).ti = s.ti := rfl
@[simp] theorem withPort_rk (x : Option U32) (B : Buffer) (s : State) : (withPort x B s).rk = s.rk := rfl
@[simp] theorem withPort_result (x : Option U32) (B : Buffer) (s : State) : (withPort x B s).result = s.result := rfl
@[simp] theorem withPort_rvalid (x : Option U32) (B : Buffer) (s : State) : (withPort x B s).rvalid = s.rvalid := rfl
@[simp] theorem withPort_buf (x : Option U32) (B : Buffer) (s : State) : (withPort x B s).buf = s.buf := rfl
@[simp] theorem withPort_cmdWord (x : Option U32) (B : Buffer) (s : State) : (withPort x B s).cmdWord = x := rfl
@[simp] theorem withPort_cmdBuf (x : Option U32) (B : Buffer) (s : State) : (withPort x B s).cmdBuf = B := rfl
@[simp] theorem withPort_resetLine (x : Option U32) (B : Buffer) (s : State) : (withPort x B s).resetLine = s.resetLine := rfl

/-! ## generated -/

@[simp] theorem generated_table (t : Table) (s : State) : (generated t s).table = t := rfl
@[simp] theorem generated_tvalid (t : Table) (s : State) : (generated t s).tvalid = true := rfl
@[simp] theorem generated_w (t : Table) (s : State) : (generated t s).w = entry 255#8 := rfl
@[simp] theorem generated_acc (t : Table) (s : State) : (generated t s).acc = s.acc := rfl
@[simp] theorem generated_sum (t : Table) (s : State) : (generated t s).sum = s.sum := rfl
@[simp] theorem generated_csum (t : Table) (s : State) : (generated t s).csum = s.csum := rfl
@[simp] theorem generated_phase (t : Table) (s : State) : (generated t s).phase = s.phase := rfl
@[simp] theorem generated_op (t : Table) (s : State) : (generated t s).op = s.op := rfl
@[simp] theorem generated_len (t : Table) (s : State) : (generated t s).len = s.len := rfl
@[simp] theorem generated_idx (t : Table) (s : State) : (generated t s).idx = s.idx := rfl
@[simp] theorem generated_ti (t : Table) (s : State) : (generated t s).ti = 255#8 := rfl
@[simp] theorem generated_rk (t : Table) (s : State) : (generated t s).rk = 8 := rfl
@[simp] theorem generated_result (t : Table) (s : State) : (generated t s).result = s.result := rfl
@[simp] theorem generated_rvalid (t : Table) (s : State) : (generated t s).rvalid = s.rvalid := rfl
@[simp] theorem generated_buf (t : Table) (s : State) : (generated t s).buf = s.buf := rfl
@[simp] theorem generated_cmdWord (t : Table) (s : State) : (generated t s).cmdWord = s.cmdWord := rfl
@[simp] theorem generated_cmdBuf (t : Table) (s : State) : (generated t s).cmdBuf = s.cmdBuf := rfl
@[simp] theorem generated_resetLine (t : Table) (s : State) : (generated t s).resetLine = s.resetLine := rfl

/-! ## afterFold -/

@[simp] theorem afterFold_table (crc : U16) (len : Nat) (s : State) : (afterFold crc len s).table = s.table := rfl
@[simp] theorem afterFold_tvalid (crc : U16) (len : Nat) (s : State) : (afterFold crc len s).tvalid = s.tvalid := rfl
@[simp] theorem afterFold_w (crc : U16) (len : Nat) (s : State) : (afterFold crc len s).w = s.w := rfl
@[simp] theorem afterFold_acc (crc : U16) (len : Nat) (s : State) : (afterFold crc len s).acc = crc := rfl
@[simp] theorem afterFold_sum (crc : U16) (len : Nat) (s : State) : (afterFold crc len s).sum = s.sum := rfl
@[simp] theorem afterFold_csum (crc : U16) (len : Nat) (s : State) : (afterFold crc len s).csum = s.csum := rfl
@[simp] theorem afterFold_phase (crc : U16) (len : Nat) (s : State) : (afterFold crc len s).phase = s.phase := rfl
@[simp] theorem afterFold_op (crc : U16) (len : Nat) (s : State) : (afterFold crc len s).op = s.op := rfl
@[simp] theorem afterFold_len (crc : U16) (len : Nat) (s : State) : (afterFold crc len s).len = s.len := rfl
@[simp] theorem afterFold_idx (crc : U16) (len : Nat) (s : State) : (afterFold crc len s).idx = lenOperand len := rfl
@[simp] theorem afterFold_ti (crc : U16) (len : Nat) (s : State) : (afterFold crc len s).ti = s.ti := rfl
@[simp] theorem afterFold_rk (crc : U16) (len : Nat) (s : State) : (afterFold crc len s).rk = s.rk := rfl
@[simp] theorem afterFold_result (crc : U16) (len : Nat) (s : State) : (afterFold crc len s).result = s.result := rfl
@[simp] theorem afterFold_rvalid (crc : U16) (len : Nat) (s : State) : (afterFold crc len s).rvalid = s.rvalid := rfl
@[simp] theorem afterFold_buf (crc : U16) (len : Nat) (s : State) : (afterFold crc len s).buf = s.buf := rfl
@[simp] theorem afterFold_cmdWord (crc : U16) (len : Nat) (s : State) : (afterFold crc len s).cmdWord = s.cmdWord := rfl
@[simp] theorem afterFold_cmdBuf (crc : U16) (len : Nat) (s : State) : (afterFold crc len s).cmdBuf = s.cmdBuf := rfl
@[simp] theorem afterFold_resetLine (crc : U16) (len : Nat) (s : State) : (afterFold crc len s).resetLine = s.resetLine := rfl

/-! ## afterAccum -/

@[simp] theorem afterAccum_table (n : Nat) (c : U8) (len : Nat) (s : State) : (afterAccum n c len s).table = s.table := rfl
@[simp] theorem afterAccum_tvalid (n : Nat) (c : U8) (len : Nat) (s : State) : (afterAccum n c len s).tvalid = s.tvalid := rfl
@[simp] theorem afterAccum_w (n : Nat) (c : U8) (len : Nat) (s : State) : (afterAccum n c len s).w = s.w := rfl
@[simp] theorem afterAccum_acc (n : Nat) (c : U8) (len : Nat) (s : State) : (afterAccum n c len s).acc = s.acc := rfl
@[simp] theorem afterAccum_sum (n : Nat) (c : U8) (len : Nat) (s : State) : (afterAccum n c len s).sum = BitVec.ofNat 32 n := rfl
@[simp] theorem afterAccum_csum (n : Nat) (c : U8) (len : Nat) (s : State) : (afterAccum n c len s).csum = c := rfl
@[simp] theorem afterAccum_phase (n : Nat) (c : U8) (len : Nat) (s : State) : (afterAccum n c len s).phase = s.phase := rfl
@[simp] theorem afterAccum_op (n : Nat) (c : U8) (len : Nat) (s : State) : (afterAccum n c len s).op = s.op := rfl
@[simp] theorem afterAccum_len (n : Nat) (c : U8) (len : Nat) (s : State) : (afterAccum n c len s).len = s.len := rfl
@[simp] theorem afterAccum_idx (n : Nat) (c : U8) (len : Nat) (s : State) : (afterAccum n c len s).idx = lenOperand len := rfl
@[simp] theorem afterAccum_ti (n : Nat) (c : U8) (len : Nat) (s : State) : (afterAccum n c len s).ti = s.ti := rfl
@[simp] theorem afterAccum_rk (n : Nat) (c : U8) (len : Nat) (s : State) : (afterAccum n c len s).rk = s.rk := rfl
@[simp] theorem afterAccum_result (n : Nat) (c : U8) (len : Nat) (s : State) : (afterAccum n c len s).result = s.result := rfl
@[simp] theorem afterAccum_rvalid (n : Nat) (c : U8) (len : Nat) (s : State) : (afterAccum n c len s).rvalid = s.rvalid := rfl
@[simp] theorem afterAccum_buf (n : Nat) (c : U8) (len : Nat) (s : State) : (afterAccum n c len s).buf = s.buf := rfl
@[simp] theorem afterAccum_cmdWord (n : Nat) (c : U8) (len : Nat) (s : State) : (afterAccum n c len s).cmdWord = s.cmdWord := rfl
@[simp] theorem afterAccum_cmdBuf (n : Nat) (c : U8) (len : Nat) (s : State) : (afterAccum n c len s).cmdBuf = s.cmdBuf := rfl
@[simp] theorem afterAccum_resetLine (n : Nat) (c : U8) (len : Nat) (s : State) : (afterAccum n c len s).resetLine = s.resetLine := rfl

/-! ## hostReset -/

@[simp] theorem hostReset_table (s : State) : (hostReset s).table = s.table := rfl
@[simp] theorem hostReset_tvalid (s : State) : (hostReset s).tvalid = s.tvalid := rfl
@[simp] theorem hostReset_w (s : State) : (hostReset s).w = s.w := rfl
@[simp] theorem hostReset_acc (s : State) : (hostReset s).acc = s.acc := rfl
@[simp] theorem hostReset_sum (s : State) : (hostReset s).sum = s.sum := rfl
@[simp] theorem hostReset_csum (s : State) : (hostReset s).csum = s.csum := rfl
@[simp] theorem hostReset_phase (s : State) : (hostReset s).phase = s.phase := rfl
@[simp] theorem hostReset_op (s : State) : (hostReset s).op = s.op := rfl
@[simp] theorem hostReset_len (s : State) : (hostReset s).len = s.len := rfl
@[simp] theorem hostReset_idx (s : State) : (hostReset s).idx = s.idx := rfl
@[simp] theorem hostReset_ti (s : State) : (hostReset s).ti = s.ti := rfl
@[simp] theorem hostReset_rk (s : State) : (hostReset s).rk = s.rk := rfl
@[simp] theorem hostReset_result (s : State) : (hostReset s).result = s.result := rfl
@[simp] theorem hostReset_rvalid (s : State) : (hostReset s).rvalid = s.rvalid := rfl
@[simp] theorem hostReset_buf (s : State) : (hostReset s).buf = s.buf := rfl
@[simp] theorem hostReset_cmdWord (s : State) : (hostReset s).cmdWord = s.cmdWord := rfl
@[simp] theorem hostReset_cmdBuf (s : State) : (hostReset s).cmdBuf = s.cmdBuf := rfl
@[simp] theorem hostReset_resetLine (s : State) : (hostReset s).resetLine = true := rfl

/-! ## takeReset -/

@[simp] theorem takeReset_table (s : State) : (takeReset s).table = State.reset.table := rfl
@[simp] theorem takeReset_tvalid (s : State) : (takeReset s).tvalid = false := rfl
@[simp] theorem takeReset_w (s : State) : (takeReset s).w = 0#16 := rfl
@[simp] theorem takeReset_acc (s : State) : (takeReset s).acc = 0#16 := rfl
@[simp] theorem takeReset_sum (s : State) : (takeReset s).sum = 0#32 := rfl
@[simp] theorem takeReset_csum (s : State) : (takeReset s).csum = 0#8 := rfl
@[simp] theorem takeReset_phase (s : State) : (takeReset s).phase = .idle := rfl
@[simp] theorem takeReset_op (s : State) : (takeReset s).op = .crc16TableGen := rfl
@[simp] theorem takeReset_len (s : State) : (takeReset s).len = 0#16 := rfl
@[simp] theorem takeReset_idx (s : State) : (takeReset s).idx = 0#16 := rfl
@[simp] theorem takeReset_ti (s : State) : (takeReset s).ti = 0#8 := rfl
@[simp] theorem takeReset_rk (s : State) : (takeReset s).rk = 0 := rfl
@[simp] theorem takeReset_result (s : State) : (takeReset s).result = 0#16 := rfl
@[simp] theorem takeReset_rvalid (s : State) : (takeReset s).rvalid = false := rfl
@[simp] theorem takeReset_buf (s : State) : (takeReset s).buf = Buffer.empty := rfl
@[simp] theorem takeReset_cmdWord (s : State) : (takeReset s).cmdWord = none := rfl
@[simp] theorem takeReset_cmdBuf (s : State) : (takeReset s).cmdBuf = s.cmdBuf := rfl
@[simp] theorem takeReset_resetLine (s : State) : (takeReset s).resetLine = false := rfl

end Sys2Proof.Machine
end

