-- ==== Sys2Proof/Laws/Engine.lean ====
section
/-! SUPPORT. What a micro-step, a command and a step can do, said once: equations under conditions, inversions, and
the parts of the state no micro-step touches. -/

namespace Sys2Proof.Machine

@[simp] theorem busy_eq_false {s : State} : s.busy = false ↔ s.phase = .idle := by simp [State.busy]

@[simp] theorem busy_eq_true {s : State} : s.busy = true ↔ s.phase ≠ .idle := by simp [State.busy]

/-- `RK` counts up to 8 without wrapping (R20). -/
theorem rk_succ {r : Fin 9} (h : r.val < 8) : (r + 1).val = r.val + 1 := by
  rw [Fin.val_add]; simp; omega

/-- `IDX` counts up to `LEN` without wrapping (R20). -/
theorem idx_succ {x y : U16} (h : x.toNat < y.toNat) : (x + 1#16).toNat = x.toNat + 1 := by
  have := y.isLt; rw [BitVec.toNat_add]; simp; omega

/-- `TI` counts up to 255 without wrapping (R20). -/
theorem ti_succ {x : U8} (h : x.toNat < 255) : (x + 1#8).toNat = x.toNat + 1 := by
  rw [BitVec.toNat_add]; simp; omega

/-! ## Micro-steps -/

theorem genStep_of_lt {s : State} (h : s.rk.val < 8) : genStep s = genRound s := if_pos h

theorem genStep_of_eq {s : State} (h : s.rk.val = 8) : genStep s = genCommit s := if_neg (by omega)

theorem genCommit_of_lt {s : State} (h : s.ti.toNat < 255) :
    genCommit s = nextEntry (commitEntry s) := if_pos h

theorem genCommit_of_last {s : State} (h : s.ti = 255#8) :
    genCommit s = finishGen (commitEntry s) := by
  unfold genCommit; rw [if_neg (by rw [h]; decide)]

theorem finishGen_of_fold {s : State} (h : s.op = .crc16PolyFold) : finishGen s = enterFold (publishTable s) :=
  if_pos h

theorem finishGen_of_tableGen {s : State} (h : s.op ≠ .crc16PolyFold) :
    finishGen s = becomeIdle (publishTable s) := if_neg h

/-- fold_byte answers exactly this next state (R76). -/
theorem foldByte_eq {s : State} {e : U16} (hb : s.idx.toNat < s.buf.size.toNat)
    (he : readTable s.table (tableIndex s.acc (s.buf.byteAt s.idx.toNat)) = some e) :
    foldByte s = .next (foldEntry e s) := by
  simp only [foldByte, Buffer.read?_of_lt hb, he]

theorem foldByte_next {s t : State} (h : foldByte s = .next t) :
    s.idx.toNat < s.buf.size.toNat ∧
      ∃ e, readTable s.table (tableIndex s.acc (s.buf.byteAt s.idx.toNat)) = some e ∧
        t = foldEntry e s := by
  by_cases hb : s.idx.toNat < s.buf.size.toNat
  · refine ⟨hb, ?_⟩
    simp only [foldByte, Buffer.read?_of_lt hb] at h
    split at h
    · cases h
    · cases h; exact ⟨_, ‹_›, rfl⟩
  · simp [foldByte, Buffer.read?, hb] at h

theorem accumByte_eq {s : State} (hb : s.idx.toNat < s.buf.size.toNat) :
    accumByte s = .next (addByte (s.buf.byteAt s.idx.toNat) s) := by
  simp only [accumByte, Buffer.read?_of_lt hb]

theorem accumByte_next {s t : State} (h : accumByte s = .next t) :
    s.idx.toNat < s.buf.size.toNat ∧ t = addByte (s.buf.byteAt s.idx.toNat) s := by
  by_cases hb : s.idx.toNat < s.buf.size.toNat
  · rw [accumByte_eq hb] at h; cases h; exact ⟨hb, rfl⟩
  · simp [accumByte, Buffer.read?, hb] at h

theorem foldStep_of_lt {s : State} (h : s.idx.toNat < s.len.toNat) : foldStep s = foldByte s := if_pos h

theorem foldStep_of_eq {s : State} (h : s.idx = s.len) : foldStep s = .next (foldFinish s) := by
  simp [foldStep, h]

theorem accumStep_of_lt {s : State} (h : s.idx.toNat < s.len.toNat) : accumStep s = accumByte s := if_pos h

theorem accumStep_of_eq {s : State} (h : s.idx = s.len) : accumStep s = .next (accumFinish s) := by
  simp [accumStep, h]

theorem engineStep_idle {s : State} (h : s.phase = .idle) : engineStep s = .next s := by
  simp [engineStep, h, waitForHost]

theorem engineStep_gen {s : State} (h : s.phase = .gen) : engineStep s = .next (genStep s) := by
  simp [engineStep, h]

theorem engineStep_fold {s : State} (h : s.phase = .fold) : engineStep s = foldStep s := by
  simp [engineStep, h]

theorem engineStep_accum {s : State} (h : s.phase = .accum) : engineStep s = accumStep s := by
  simp [engineStep, h]

/-- Everything a micro-step of the engine can do. -/
inductive EngineCase (s t : State) : Prop where
  | idle (hp : s.phase = .idle) (ht : t = s)
  | round (hp : s.phase = .gen) (hk : s.rk.val < 8) (ht : t = genRound s)
  | commit (hp : s.phase = .gen) (hk : s.rk.val = 8) (hi : s.ti.toNat < 255)
      (ht : t = nextEntry (commitEntry s))
  | lastFold (hp : s.phase = .gen) (hk : s.rk.val = 8) (hi : s.ti = 255#8) (ho : s.op = .crc16PolyFold)
      (ht : t = enterFold (publishTable (commitEntry s)))
  | lastIdle (hp : s.phase = .gen) (hk : s.rk.val = 8) (hi : s.ti = 255#8) (ho : s.op ≠ .crc16PolyFold)
      (ht : t = becomeIdle (publishTable (commitEntry s)))
  | foldByte (hp : s.phase = .fold) (hl : s.idx.toNat < s.len.toNat) (hb : s.idx.toNat < s.buf.size.toNat)
      (e : U16) (he : readTable s.table (tableIndex s.acc (s.buf.byteAt s.idx.toNat)) = some e)
      (ht : t = foldEntry e s)
  | foldFinish (hp : s.phase = .fold) (hl : s.idx = s.len) (ht : t = foldFinish s)
  | accumByte (hp : s.phase = .accum) (hl : s.idx.toNat < s.len.toNat) (hb : s.idx.toNat < s.buf.size.toNat)
      (ht : t = addByte (s.buf.byteAt s.idx.toNat) s)
  | accumFinish (hp : s.phase = .accum) (hl : s.idx = s.len) (ht : t = accumFinish s)

theorem engineStep_cases {s t : State} (h : engineStep s = .next t) : EngineCase s t := by
  cases hp : s.phase with
  | idle => rw [engineStep_idle hp] at h; cases h; exact .idle hp rfl
  | gen =>
    rw [engineStep_gen hp] at h
    have hr := s.rk.isLt
    by_cases hk : s.rk.val < 8
    · rw [genStep_of_lt hk] at h; cases h; exact .round hp hk rfl
    · have hk : s.rk.val = 8 := by omega
      rw [genStep_of_eq hk] at h
      by_cases hi : s.ti.toNat < 255
      · rw [genCommit_of_lt hi] at h; cases h; exact .commit hp hk hi rfl
      · have hi : s.ti = 255#8 := BitVec.eq_of_toNat_eq (by have := s.ti.isLt; simp; omega)
        rw [genCommit_of_last hi] at h
        by_cases ho : s.op = .crc16PolyFold
        · have hf := finishGen_of_fold (s := commitEntry s) ho
          rw [hf] at h; cases h; exact .lastFold hp hk hi ho rfl
        · have hf := finishGen_of_tableGen (s := commitEntry s) ho
          rw [hf] at h; cases h; exact .lastIdle hp hk hi ho rfl
  | fold =>
    rw [engineStep_fold hp] at h
    by_cases hl : s.idx.toNat < s.len.toNat
    · rw [foldStep_of_lt hl] at h
      obtain ⟨hb, e, he, ht⟩ := foldByte_next h
      exact .foldByte hp hl hb e he ht
    · by_cases he : s.idx = s.len
      · rw [foldStep_of_eq he] at h; cases h; exact .foldFinish hp he rfl
      · simp [foldStep, hl, he] at h
  | accum =>
    rw [engineStep_accum hp] at h
    by_cases hl : s.idx.toNat < s.len.toNat
    · rw [accumStep_of_lt hl] at h
      obtain ⟨hb, ht⟩ := accumByte_next h
      exact .accumByte hp hl hb ht
    · by_cases he : s.idx = s.len
      · rw [accumStep_of_eq he] at h; cases h; exact .accumFinish hp he rfl
      · simp [accumStep, hl, he] at h

/-- No micro-step touches the host's side, `BUF`, `OP` or `LEN`. -/
theorem engineStep_keeps {s t : State} (h : engineStep s = .next t) :
    t.buf = s.buf ∧ t.cmdWord = s.cmdWord ∧ t.cmdBuf = s.cmdBuf ∧ t.resetLine = s.resetLine ∧ t.op = s.op ∧
      t.len = s.len := by
  cases engineStep_cases h <;> subst_vars <;> exact ⟨rfl, rfl, rfl, rfl, rfl, rfl⟩

/-- The engine neither refuses: a micro-step is a next state or a fault. -/
theorem engineStep_ne_refused (s : State) (r : Refusal) : engineStep s ≠ .refused r := by
  unfold engineStep foldStep foldByte accumStep accumByte
  intro h
  repeat' (split at h)
  all_goals cases h

/-! ## Commands -/

/-- A command presented to a busy block is held while the engine goes on (R113). -/
theorem exec_of_busy (i : Instr) {s : State} (h : s.phase ≠ .idle) : exec i s = engineStep s := by
  cases i <;> simp [exec, execCrc16TableGen, execCrc16PolyFold, execChecksum8Accum, h]

/-- The state right after an idle block accepts a command: latched, and the entry action taken (R51). -/
def accepted (i : Instr) (s : State) : State :=
  match i with
  | .crc16TableGen =>
    if s.tvalid then latchCommand .crc16TableGen 0 s else enterGen (latchCommand .crc16TableGen 0 s)
  | .crc16PolyFold len => enterFoldOrGen (takeBuffer s.cmdBuf (latchCommand .crc16PolyFold len s))
  | .checksum8Accum len => enterAccum (takeBuffer s.cmdBuf (latchCommand .checksum8Accum len s))

/-- An idle block accepts the command or refuses it, by its length alone. -/
theorem exec_of_idle (i : Instr) {s : State} (h : s.phase = .idle) :
    exec i s = if acceptable i s then .next (accepted i s) else .refused .lengthExceedsBuffer := by
  have hb : ¬ s.busy = true := by simp [h]
  cases i with
  | crc16TableGen =>
    by_cases hv : s.tvalid <;> simp [exec, execCrc16TableGen, acceptable, accepted, h, hv]
  | crc16PolyFold len =>
    show execCrc16PolyFold len s = _
    unfold execCrc16PolyFold; rw [if_neg hb]; rfl
  | checksum8Accum len =>
    show execChecksum8Accum len s = _
    unfold execChecksum8Accum; rw [if_neg hb]; rfl

/-- Acceptance clears `RVALID`, takes the word and leaves the host's buffer and the reset event. -/
theorem accepted_keeps (i : Instr) (s : State) :
    (accepted i s).rvalid = false ∧ (accepted i s).cmdWord = none ∧ (accepted i s).cmdBuf = s.cmdBuf ∧
      (accepted i s).resetLine = s.resetLine ∧ (accepted i s).result = s.result ∧
      (accepted i s).table = s.table ∧ (accepted i s).tvalid = s.tvalid := by
  cases i <;> simp only [accepted, enterFoldOrGen] <;> (try split) <;> exact ⟨rfl, rfl, rfl, rfl, rfl, rfl, rfl⟩

/-! ## Steps -/

theorem step_of_reset {s : State} (h : s.resetLine = true) : step s = .next (takeReset s) := by
  simp [step, h]

theorem step_of_busy {s : State} (hr : s.resetLine = false) (h : s.phase ≠ .idle) : step s = engineStep s := by
  simp [step, hr, h]

theorem step_of_empty {s : State} (hr : s.resetLine = false) (hp : s.phase = .idle) (hw : s.cmdWord = none) :
    step s = .next s := by
  simp [step, hr, hp, portWord, hw, waitForHost]

theorem step_of_reserved {s : State} {c : U32} {why : Reserved} (hr : s.resetLine = false) (hp : s.phase = .idle)
    (hw : s.cmdWord = some c) (hd : decode c = .reserved why) : step s = .refused (.reservedCommand why) := by
  simp [step, hr, hp, portWord, hw, hd]

theorem step_of_cmd {s : State} {c : U32} {i : Instr} (hr : s.resetLine = false) (hp : s.phase = .idle)
    (hw : s.cmdWord = some c) (hd : decode c = .cmd i) : step s = exec i s := by
  simp [step, hr, hp, portWord, hw, hd]

/-- Everything a step can do when it answers a next state. -/
inductive StepCase (s t : State) : Prop where
  | reset (hr : s.resetLine = true) (ht : t = takeReset s)
  | engine (hr : s.resetLine = false) (hp : s.phase ≠ .idle) (ht : engineStep s = .next t)
  | wait (hr : s.resetLine = false) (hp : s.phase = .idle) (hw : s.cmdWord = none) (ht : t = s)
  | accept (hr : s.resetLine = false) (hp : s.phase = .idle) (c : U32) (hw : s.cmdWord = some c) (i : Instr)
      (hd : decode c = .cmd i) (ha : acceptable i s = true) (ht : t = accepted i s)

theorem step_cases {s t : State} (h : step s = .next t) : StepCase s t := by
  by_cases hr : s.resetLine = true
  · rw [step_of_reset hr] at h; cases h; exact .reset hr rfl
  · have hr : s.resetLine = false := by simpa using hr
    by_cases hp : s.phase = .idle
    · cases hw : s.cmdWord with
      | none => rw [step_of_empty hr hp hw] at h; cases h; exact .wait hr hp hw rfl
      | some c =>
        cases hd : decode c with
        | reserved why => rw [step_of_reserved hr hp hw hd] at h; cases h
        | cmd i =>
          rw [step_of_cmd hr hp hw hd, exec_of_idle i hp] at h
          split at h
          · cases h; exact .accept hr hp c hw i hd ‹_› rfl
          · cases h
    · rw [step_of_busy hr hp] at h; exact .engine hr hp h

end Sys2Proof.Machine
end

