-- ==== Sys2Proof/Laws/Operands.lean ====
section
/-! SUPPORT. Operands and their checks, as plain propositions. -/

namespace Sys2Proof.Machine

@[simp] theorem lenFits_iff {len : Nat} : lenFits len = true ↔ len < 65536 :=
  ⟨fun h => of_decide_eq_true h, fun h => decide_eq_true h⟩

@[simp] theorem lengthOk_iff {len : Nat} {B : Buffer} : lengthOk len B = true ↔ len ≤ B.size.toNat := by
  simp [lengthOk]

@[simp] theorem lengthOk_eq_false {len : Nat} {B : Buffer} : lengthOk len B = false ↔ B.size.toNat < len := by
  simp [lengthOk]

@[simp] theorem bufOperand_eq (s : State) : bufOperand s = s.cmdBuf := rfl

@[simp] theorem acceptable_tableGen (s : State) : acceptable .crc16TableGen s = true := rfl

@[simp] theorem acceptable_polyFold (len : Nat) (s : State) :
    acceptable (.crc16PolyFold len) s = lengthOk len s.cmdBuf := rfl

@[simp] theorem acceptable_checksum (len : Nat) (s : State) :
    acceptable (.checksum8Accum len) s = lengthOk len s.cmdBuf := rfl

/-- A length that fits its field is the value of `LEN` (R19). -/
theorem lenOperand_toNat {len : Nat} (h : len < 65536) : (lenOperand len).toNat = len := by
  simp only [lenOperand, BitVec.toNat_ofNat]; omega

/-- A length the bound buffer allows fits its field: `BUFSZ` is a u16 (R5). -/
theorem lenOperand_toNat_of_le {len : Nat} {B : Buffer} (h : len ≤ B.size.toNat) :
    (lenOperand len).toNat = len :=
  lenOperand_toNat (by have := B.size.isLt; omega)

/-- The length field of a word is a u16. -/
theorem lenField_lt (c : U32) : lenField c < 65536 := by unfold lenField; omega

end Sys2Proof.Machine
end

