-- ==== Sys2Proof/Laws/Pure.lean ====
section
/-! SUPPORT. The pure functions: their recursion, bounds and congruence; the generation loop fills the table. -/

namespace Sys2Proof.Machine

@[simp] theorem crcRounds_zero (w : U16) : crcRounds 0 w = w := rfl

theorem crcRounds_succ (k : Nat) (w : U16) : crcRounds (k + 1) w = crcRound (crcRounds k w) := rfl

@[simp] theorem crc16_zero (B : Buffer) : crc16 B 0 = Config.seed := rfl

theorem crc16_succ (B : Buffer) (k : Nat) : crc16 B (k + 1) = fold (crc16 B k) (B.byteAt k) := rfl

@[simp] theorem byteSum_zero (B : Buffer) : byteSum B 0 = 0 := rfl

theorem byteSum_succ (B : Buffer) (k : Nat) : byteSum B (k + 1) = byteSum B k + (B.byteAt k).toNat := rfl

@[simp] theorem neg8_zero : neg8 0 = 0#8 := by decide

/-- The checksum of the first `L` bytes is that of their sum, `L` = 0 included. -/
theorem checksum8_eq_neg8 (B : Buffer) (L : Nat) : checksum8 B L = neg8 (byteSum B L) := by
  cases L <;> simp [checksum8]

/-- Each byte adds at most 255. -/
theorem byteSum_le (B : Buffer) (L : Nat) : byteSum B L ≤ 255 * L := by
  induction L with
  | zero => simp
  | succ k ih => have := (B.byteAt k).isLt; rw [byteSum_succ]; omega

/-- A 32-bit register holds the sum of a command's bytes. -/
theorem byteSum_lt (B : Buffer) {L : Nat} (h : L < 65536) : byteSum B L < 2 ^ 32 := by
  have := byteSum_le B L; omega

@[simp] theorem tableLoop_zero (t : Table) : tableLoop 0 t = t := rfl

theorem tableLoop_succ (n : Nat) (t : Table) :
    tableLoop (n + 1) t = writeTable (tableLoop n t) (BitVec.ofNat 8 n) (entry (BitVec.ofNat 8 n)) := rfl

/-- The loop of R60 after `n` entries: the first `n` are generated, the others as before. -/
theorem readTable_tableLoop (t : Table) (n : Nat) (hn : n ≤ 256) (i : U8) :
    readTable (tableLoop n t) i = if i.toNat < n then some (entry i) else readTable t i := by
  induction n with
  | zero => simp
  | succ n ih =>
    have hn' : (BitVec.ofNat 8 n).toNat = n := by simp only [BitVec.toNat_ofNat]; omega
    rw [tableLoop_succ, readTable_writeTable, ih (by omega)]
    by_cases h : i = BitVec.ofNat 8 n
    · have hi : i.toNat < n + 1 := by rw [h, hn']; omega
      rw [if_pos h, if_pos hi, h]
    · have hi : i.toNat ≠ n := fun he => h (BitVec.eq_of_toNat_eq (by rw [hn', he]))
      have : i.toNat < n ↔ i.toNat < n + 1 := by omega
      simp only [h, if_false, this]

/-- A loop over 256 entries generates every entry. -/
theorem tableFull_tableLoop (t : Table) {n : Nat} (hn : n = 256) : TableFull (tableLoop n t) := fun i => by
  have := i.isLt
  rw [readTable_tableLoop t n (by omega), if_pos (by omega)]

/-- The whole loop generates every entry. -/
theorem wholeTable_full (t : Table) : TableFull (wholeTable t) := by
  have h : ∀ n, n = 256 → TableFull (tableLoop n t) := fun n hn => tableFull_tableLoop t hn
  unfold wholeTable
  exact h Config.tsize rfl

/-- The full table is one table. -/
theorem TableFull.unique {t u : Table} (ht : TableFull t) (hu : TableFull u) : t = u :=
  table_ext fun i => by rw [ht i, hu i]

/-- The table of a state after the generation of R60, whatever it was before. -/
theorem tableFull_generateTable {s : State} (h : s.tvalid = true → TableFull s.table) :
    TableFull (generateTable s).table := by
  unfold generateTable; split
  · exact h ‹_›
  · exact wholeTable_full _

end Sys2Proof.Machine
end

