-- ==== Sys2Proof/Laws/Run.lean ====
section
/-! SUPPORT. Runs: their recursion, how they compose, and that they are the host interface's runs. -/

namespace Sys2Proof.Machine

@[simp] theorem run_zero (s : State) : run 0 s = .next s := rfl

theorem run_succ_of_next {s t : State} (n : Nat) (h : step s = .next t) : run (n + 1) s = run n t := by
  simp only [run, h]

/-- A run in two parts. -/
theorem run_add {s t : State} (m n : Nat) (h : run m s = .next t) : run (m + n) s = run n t := by
  induction m generalizing s with
  | zero => cases h; rw [Nat.zero_add]
  | succ m ih =>
    cases hs : step s with
    | next u => rw [Nat.add_right_comm, run_succ_of_next _ hs, ih (by rwa [run_succ_of_next _ hs] at h)]
    | fault r => simp [run, hs] at h
    | refused r => simp [run, hs] at h

/-- What holds of a state and of every next step holds after a run. -/
theorem run_induction {P : State → Prop} (hP : ∀ s t, P s → step s = .next t → P t) {n : Nat} {s t : State}
    (hs : P s) (h : run n s = .next t) : P t := by
  induction n generalizing s with
  | zero => cases h; exact hs
  | succ n ih =>
    cases hu : step s with
    | next u => exact ih (hP s u hs hu) (by rwa [run_succ_of_next _ hu] at h)
    | fault r => simp [run, hu] at h
    | refused r => simp [run, hu] at h

/-- One step of the host interface's run, by the step's outcome. -/
theorem core_run_succ (M : Host.Core) (n : Nat) (s : M.State) :
    (∀ t, M.step s = .next t → M.run (n + 1) s = M.run n t) ∧
      (∀ r, M.step s = .fault r → M.run (n + 1) s = .fault r) ∧
      (∀ r, M.step s = .refused r → M.run (n + 1) s = .refused r) := by
  refine ⟨fun t h => ?_, fun r h => ?_, fun r h => ?_⟩ <;> simp [Host.Core.run, h]

/-- `run` is the host interface's run of `core`. -/
theorem run_eq_core_run (n : Nat) (s : State) : run n s = Host.Core.run Sys2Proof.core n s := by
  induction n generalizing s with
  | zero => rfl
  | succ n ih =>
    obtain ⟨hn, hf, hr⟩ := core_run_succ Sys2Proof.core n s
    unfold run
    cases hs : step s with
    | next t => exact (ih t).trans (hn t hs).symm
    | fault r => exact (hf r hs).symm
    | refused r => exact (hr r hs).symm

/-- A run to ready ends at once where nothing is waiting. -/
theorem runToReady_of_not_waiting {s : State} (n : Nat) (h : waiting s = false) : runToReady n s = .next s := by
  cases n <;> simp [runToReady, h]

theorem runToReady_succ {s t : State} (n : Nat) (hw : waiting s = true) (h : step s = .next t) :
    runToReady (n + 1) s = runToReady n t := by
  simp only [runToReady, hw, if_true, h]

/-! ## Host moves one after another -/

@[simp] theorem andThen_next (t : State) (f : State → Host.Outcome State Fault Refusal) : andThen (.next t) f = f t := rfl
@[simp] theorem andThen_fault (r : Fault) (f : State → Host.Outcome State Fault Refusal) :
    andThen (.fault r) f = .fault r := rfl
@[simp] theorem andThen_refused (r : Refusal) (f : State → Host.Outcome State Fault Refusal) :
    andThen (.refused r) f = .refused r := rfl

/-- When one move after another answers a next state, each of the two does. -/
theorem andThen_cases {o : Host.Outcome State Fault Refusal} {f : State → Host.Outcome State Fault Refusal} {u : State}
    (h : andThen o f = .next u) : ∃ t, o = .next t ∧ f t = .next u := by
  cases o with
  | next t => exact ⟨t, rfl, h⟩
  | fault r => cases h
  | refused r => cases h

theorem portTaken_of_not_waiting {s : State} (h : waiting s = false) : portTaken s = false := by
  simp only [waiting, Bool.or_eq_false_iff] at h
  simp only [portTaken, h.1.2, h.2, Bool.or_self]

theorem waitForPort_of_free {s : State} (h : portTaken s = false) : waitForPort s = .next s := by
  simp [waitForPort, h]

theorem bindLine_of_free {s : State} (B : Buffer) (h : portTaken s = false) : bindLine B s = .next (hostBind B s) := by
  simp [bindLine, waitForPort_of_free h]

theorem issue_of_free {s : State} {i : Instr} (hi : i.WellFormed) (h : portTaken s = false) :
    issue i s = runToReady waitBound (hostPresent (encode i) s) := by
  have hi : i.wellFormed = true := hi
  simp [issue, hi, waitForPort_of_free h]

end Sys2Proof.Machine
end

