-- ==== Sys2Proof/Laws/Loops.lean ====
section
/-! SUPPORT. The three loops of the sequencer, each as the state after so many micro-steps: the rounds of one entry,
the entries of the table, the bytes of a fold and of a sum. -/

namespace Sys2Proof.Machine

/-- One engine step, as a run. -/
theorem run_one_busy {s t : State} (hr : s.resetLine = false) (hp : s.phase ≠ .idle) (h : engineStep s = .next t) :
    run 1 s = .next t := by
  rw [run_succ_of_next 0 (by rw [step_of_busy hr hp, h]), run_zero]

/-! ## GEN -/

/-- `k` rounds on `W`. -/
def afterRounds (k : Nat) (s : State) (h : s.rk.val + k < 9) : State :=
  { s with w := crcRounds k s.w, rk := ⟨s.rk.val + k, h⟩ }

/-- Within an entry, `k` micro-steps are `k` rounds. -/
theorem run_rounds {s : State} (hr : s.resetLine = false) (hp : s.phase = .gen) (k : Nat) (hk : s.rk.val + k < 9) :
    run k s = .next (afterRounds k s hk) := by
  induction k with
  | zero => rfl
  | succ k ih =>
    have hk' : s.rk.val + k < 8 := by omega
    have hs : engineStep (afterRounds k s (by omega)) = .next (genRound (afterRounds k s (by omega))) := by
      rw [engineStep_gen (by exact hp), genStep_of_lt (by exact hk')]
    rw [run_add k 1 (ih (by omega)), run_one_busy (by exact hr) (by simp [afterRounds, hp]) hs]
    have hrk : ((⟨s.rk.val + k, by omega⟩ : Fin 9) + 1) = ⟨s.rk.val + (k + 1), hk⟩ :=
      Fin.ext (by rw [rk_succ (by exact hk')]; rfl)
    simp only [genRound, afterRounds, crcRounds_succ, hrk]

/-- GEN at the start of entry `k`, the entries below it generated. -/
def genAt (s : State) (k : Nat) : State :=
  { s with
    table := tableLoop k s.table
    ti := BitVec.ofNat 8 k
    rk := 0
    w := highOctet (BitVec.ofNat 8 k)
    phase := .gen }

/-- GEN at the commit of entry `k`. -/
def genCommitAt (s : State) (k : Nat) : State :=
  { s with
    table := tableLoop k s.table
    ti := BitVec.ofNat 8 k
    rk := 8
    w := entry (BitVec.ofNat 8 k)
    phase := .gen }

theorem enterGen_eq_genAt (s : State) : enterGen s = genAt s 0 := rfl

theorem run_genAt_commit {s : State} (hr : s.resetLine = false) (k : Nat) :
    run 8 (genAt s k) = .next (genCommitAt s k) :=
  run_rounds (s := genAt s k) hr rfl 8 (by simp [genAt])

theorem engineStep_genCommitAt (s : State) {k : Nat} (hk : k < 255) :
    engineStep (genCommitAt s k) = .next (genAt s (k + 1)) := by
  have hti : (BitVec.ofNat 8 k).toNat < 255 := by simp only [BitVec.toNat_ofNat]; omega
  have hadd : BitVec.ofNat 8 k + 1#8 = BitVec.ofNat 8 (k + 1) := by rw [← BitVec.ofNat_add]
  rw [engineStep_gen rfl, genStep_of_eq rfl, genCommit_of_lt (by exact hti)]
  simp only [nextEntry, commitEntry, genCommitAt, genAt, hadd, tableLoop_succ]

/-- After nine micro-steps per entry, GEN is at the start of the next. -/
theorem run_genAt {s : State} (hr : s.resetLine = false) (k : Nat) (hk : k ≤ 255) :
    run (9 * k) (genAt s 0) = .next (genAt s k) := by
  induction k with
  | zero => rfl
  | succ k ih =>
    have h9 : run (8 + 1) (genAt s k) = .next (genAt s (k + 1)) := by
      rw [run_add 8 1 (run_genAt_commit hr k)]
      exact run_one_busy hr (by simp [genCommitAt]) (engineStep_genCommitAt s (by omega))
    rw [Nat.mul_succ, run_add _ 9 (ih (by omega)), h9]

/-- GEN with all entries written, where it hands over. -/
def genDone (s : State) : State :=
  { s with table := wholeTable s.table, ti := 255#8, rk := 8, w := entry 255#8, phase := .gen }

/-- The write of entry 255 completes the table. The number is a variable, so that nothing unrolls the loop. -/
theorem writeTable_last (t : Table) {n : Nat} (hn : n = 255) :
    writeTable (tableLoop n t) (BitVec.ofNat 8 n) (entry (BitVec.ofNat 8 n)) = wholeTable t :=
  TableFull.unique (tableFull_tableLoop t (n := n + 1) (by omega)) (wholeTable_full t)

theorem commitEntry_last (s : State) {n : Nat} (hn : n = 255) : commitEntry (genCommitAt s n) = genDone s := by
  simp only [commitEntry, genCommitAt, writeTable_last s.table hn, genDone]
  subst hn
  rfl

theorem engineStep_genCommitAt_last (s : State) {n : Nat} (hn : n = 255) :
    engineStep (genCommitAt s n) = .next (finishGen (genDone s)) := by
  rw [engineStep_gen rfl, genStep_of_eq rfl, genCommit_of_last (by subst hn; rfl), commitEntry_last s hn]

/-- The whole generation, from entry to GEN to leaving it: 256 entries of nine micro-steps (R61). -/
theorem run_generation {s : State} (hr : s.resetLine = false) {n : Nat} (hn : n = 2304) :
    run n (enterGen s) = .next (finishGen (genDone s)) := by
  obtain ⟨k, hk⟩ : ∃ k : Nat, k = 255 := ⟨255, rfl⟩
  have hnk : n = 9 * k + (8 + 1) := by omega
  rw [hnk, enterGen_eq_genAt, run_add _ _ (run_genAt hr k (by omega)), run_add 8 1 (run_genAt_commit hr k)]
  exact run_one_busy hr (by simp [genCommitAt]) (engineStep_genCommitAt_last s hk)

/-! ## FOLD and ACCUM -/

theorem lenOperand_succ (k : Nat) : lenOperand k + 1#16 = lenOperand (k + 1) := by
  unfold lenOperand; rw [← BitVec.ofNat_add]

theorem lenOperand_len (s : State) : lenOperand s.len.toNat = s.len := by simp [lenOperand]

/-- fold_byte with a full table, at byte `k`. -/
theorem engineStep_fold_at {s : State} (ht : TableFull s.table) {k : Nat} (hk : k < s.len.toNat)
    (hb : s.len.toNat ≤ s.buf.size.toNat) :
    engineStep (afterFold (crc16 s.buf k) k (enterFold s)) =
      .next (afterFold (crc16 s.buf (k + 1)) (k + 1) (enterFold s)) := by
  have hlen := s.len.isLt
  have hkk : (lenOperand k).toNat = k := lenOperand_toNat (by omega)
  have hi : (afterFold (crc16 s.buf k) k (enterFold s)).idx.toNat = k := hkk
  rw [engineStep_fold rfl, foldStep_of_lt (by rw [hi]; exact hk),
    foldByte_eq (e := entry (tableIndex (crc16 s.buf k) (s.buf.byteAt k))) (by rw [hi]; exact hk.trans_le hb)
      (by rw [hi]; exact ht _)]
  simp only [foldEntry, afterFold, lenOperand_succ, crc16_succ, fold]

/-- After `k` ≤ `LEN` micro-steps of FOLD, `ACC` = crc16 of the first `k` bytes. -/
theorem run_fold {s : State} (hr : s.resetLine = false) (ht : TableFull s.table)
    (hb : s.len.toNat ≤ s.buf.size.toNat) {k : Nat} (hk : k ≤ s.len.toNat) :
    run k (enterFold s) = .next (afterFold (crc16 s.buf k) k (enterFold s)) := by
  induction k with
  | zero => rfl
  | succ k ih =>
    rw [run_add k 1 (ih (by omega)), run_one_busy (by exact hr) (by simp) (engineStep_fold_at ht hk hb)]

/-- The whole fold: `LEN` + 1 micro-steps (R76). -/
theorem run_fold_all {s : State} (hr : s.resetLine = false) (ht : TableFull s.table)
    (hb : s.len.toNat ≤ s.buf.size.toNat) :
    run (s.len.toNat + 1) (enterFold s) =
      .next (deliver (crc16 s.buf s.len.toNat) (afterFold (crc16 s.buf s.len.toNat) s.len.toNat (enterFold s))) := by
  rw [run_add _ 1 (run_fold hr ht hb le_rfl)]
  refine run_one_busy hr (by simp) ?_
  rw [engineStep_fold rfl, foldStep_of_eq (lenOperand_len s)]
  rfl

/-- accum_byte at byte `k`. -/
theorem engineStep_accum_at {s : State} {k : Nat} (hk : k < s.len.toNat) (hb : s.len.toNat ≤ s.buf.size.toNat) :
    engineStep (afterAccum (byteSum s.buf k) (checksum8 s.buf k) k (enterAccum s)) =
      .next (afterAccum (byteSum s.buf (k + 1)) (checksum8 s.buf (k + 1)) (k + 1) (enterAccum s)) := by
  have hlen := s.len.isLt
  have hkk : (lenOperand k).toNat = k := lenOperand_toNat (by omega)
  have hi : (afterAccum (byteSum s.buf k) (checksum8 s.buf k) k (enterAccum s)).idx.toNat = k := hkk
  have hadd : BitVec.ofNat 32 (byteSum s.buf k) + (s.buf.byteAt k).setWidth 32 =
      BitVec.ofNat 32 (byteSum s.buf (k + 1)) := by
    rw [byteSum_succ]; apply BitVec.eq_of_toNat_eq; simp
  have hlt := byteSum_lt s.buf (L := k + 1) (by omega)
  rw [engineStep_accum rfl, accumStep_of_lt (by rw [hi]; exact hk),
    accumByte_eq (by rw [hi]; exact hk.trans_le hb), hi]
  simp only [addByte, afterAccum, enterAccum, lenOperand_succ, hadd, BitVec.toNat_ofNat, Nat.mod_eq_of_lt hlt,
    checksum8]

/-- After `k` ≤ `LEN` micro-steps of ACCUM, `SUM` and `CSUM` are those of the first `k` bytes. -/
theorem run_accum {s : State} (hr : s.resetLine = false) (hb : s.len.toNat ≤ s.buf.size.toNat) {k : Nat}
    (hk : k ≤ s.len.toNat) :
    run k (enterAccum s) = .next (afterAccum (byteSum s.buf k) (checksum8 s.buf k) k (enterAccum s)) := by
  induction k with
  | zero => rfl
  | succ k ih =>
    rw [run_add k 1 (ih (by omega)), run_one_busy (by exact hr) (by simp) (engineStep_accum_at hk hb)]

/-- The whole sum: `LEN` + 1 micro-steps (R90). -/
theorem run_accum_all {s : State} (hr : s.resetLine = false) (hb : s.len.toNat ≤ s.buf.size.toNat) :
    run (s.len.toNat + 1) (enterAccum s) =
      .next (deliver ((checksum8 s.buf s.len.toNat).setWidth 16)
        (afterAccum (byteSum s.buf s.len.toNat) (checksum8 s.buf s.len.toNat) s.len.toNat (enterAccum s))) := by
  rw [run_add _ 1 (run_accum hr hb le_rfl)]
  refine run_one_busy hr (by simp) ?_
  rw [engineStep_accum rfl, accumStep_of_eq (lenOperand_len s)]
  rfl

end Sys2Proof.Machine
end

