-- ==== Sys2Proof/Laws/Invariant.lean ====
section
/-! SUPPORT. Ways into the invariants of R27: what an idle state, and a state at the start of each phase, needs. -/

namespace Sys2Proof.Machine

/-- In IDLE only the table and the form of the buffers matter. -/
theorem inv_of_idle {s : State} (hp : s.phase = .idle) (ht : s.tvalid = true → TableFull s.table) (hb : s.buf.wf)
    (hc : s.cmdBuf.wf) : Inv s where
  foldValid h := by rw [hp] at h; cases h
  table := ht
  gen h := by rw [hp] at h; cases h
  foldOp h := by rw [hp] at h; cases h
  accumOp h := by rw [hp] at h; cases h
  foldLoop h := by rw [hp] at h; cases h
  accumLoop h := by rw [hp] at h; cases h
  acc h := by rw [hp] at h; cases h
  sum h := by rw [hp] at h; cases h
  csum h := by rw [hp] at h; cases h
  rvalid _ := hp
  buf := hb
  cmdBuf := hc

/-- At the start of FOLD: the table is valid and full, no result is held, the length is within the buffer. -/
theorem inv_enterFold {s : State} (hv : s.tvalid = true) (ht : TableFull s.table) (ho : s.op = .crc16PolyFold)
    (hl : s.len.toNat ≤ s.buf.size.toNat) (hr : s.rvalid = false) (hb : s.buf.wf) (hc : s.cmdBuf.wf) :
    Inv (enterFold s) where
  foldValid _ := hv
  table _ := ht
  gen h := by cases h
  foldOp _ := ho
  accumOp h := by cases h
  foldLoop _ := ⟨by simp, hl⟩
  accumLoop h := by cases h
  acc _ := rfl
  sum h := by cases h
  csum h := by cases h
  rvalid h := by rw [enterFold_rvalid, hr] at h; cases h
  buf := hb
  cmdBuf := hc

end Sys2Proof.Machine
end

