-- ==== Sys2Proof/Laws/PerInstr.lean ====
section
/-! SUPPORT. Statements per command, about its syntax and its word. -/

namespace Sys2Proof.Laws.RowMatch

/-- The word of a well-formed command matches its row of R48, and its `LEN` field is the command's length. -/
def Statement (i : Sys2Proof.Instr) : Prop :=
  i.WellFormed →
    (match i with
      | .crc16TableGen => encode i &&& 0xFFFFFFFF#32 = 0x40000000#32
      | .crc16PolyFold _ => encode i &&& 0xFFFF0000#32 = 0x80000000#32
      | .checksum8Accum _ => encode i &&& 0xFFFF0000#32 = 0xC0000000#32) ∧
    lenField (encode i) = i.len

/-- The `LEN` field of a word laid out as R44 says. -/
theorem lenField_layout (op : BitVec 2) (n : Nat) (h : n < 65536) :
    lenField (op ++ (0#14 ++ BitVec.ofNat 16 n)) = n := by
  have : (op ++ (0#14 ++ BitVec.ofNat 16 n)).extractLsb' 0 16 = BitVec.ofNat 16 n := by
    apply BitVec.eq_of_getLsbD_eq; intro k hk
    simp only [BitVec.getLsbD_extractLsb', Nat.zero_add, BitVec.getLsbD_append, hk, decide_true, Bool.true_and,
      if_true, show k < 14 + 16 by omega]
  simp only [lenField, this, BitVec.toNat_ofNat]; omega

/-- Masking the `LEN` field away leaves `OP` above zeros. -/
theorem mask_layout (op : BitVec 2) (n : U16) :
    (op ++ (0#14 ++ n)) &&& 0xFFFF0000#32 = op ++ 0#30 := by
  have hm : (0xFFFF0000#32) = (BitVec.allOnes 16 ++ 0#16 : BitVec 32) := by decide
  apply BitVec.eq_of_getLsbD_eq; intro k hk
  rw [hm]
  simp only [BitVec.getLsbD_and, BitVec.getLsbD_append, BitVec.getLsbD_zero, BitVec.getLsbD_allOnes]
  by_cases h1 : k < 16
  · have h2 : k < 30 := by omega
    simp [h1, h2]
  · have h4 : k - 16 < 16 := by omega
    by_cases h2 : k < 30 <;> simp [h1, h2, h4]

theorem crc16TableGen : Statement .crc16TableGen := fun _ => by decide

theorem crc16PolyFold (len : Nat) : Statement (.crc16PolyFold len) := fun h =>
  have hl : len < 65536 := of_decide_eq_true h
  ⟨mask_layout 0b10#2 _, lenField_layout 0b10#2 len hl⟩

theorem checksum8Accum (len : Nat) : Statement (.checksum8Accum len) := fun h =>
  have hl : len < 65536 := of_decide_eq_true h
  ⟨mask_layout 0b11#2 _, lenField_layout 0b11#2 len hl⟩

end Sys2Proof.Laws.RowMatch
end

