-- ==== Sys2Proof/Tests/Slice0.lean ====
section
/-! SUPPORT. The model's own tests, each expected value taken from the spec, and for every obligation with hypotheses
a witness that meets them. -/

namespace Sys2Proof.Tests

open Sys2Proof.Machine

/-! ## Well-formedness (R53): the check refuses a length above 65535 -/

theorem test_wf_table_gen : Instr.WellFormed .crc16TableGen := by decide
theorem test_wf_poly_fold_max : Instr.WellFormed (.crc16PolyFold 65535) := by decide
theorem test_ill_formed_poly_fold : ¬ Instr.WellFormed (.crc16PolyFold 65536) := by decide
theorem test_wf_checksum_max : Instr.WellFormed (.checksum8Accum 65535) := by decide
theorem test_ill_formed_checksum : ¬ Instr.WellFormed (.checksum8Accum 65536) := by decide

/-! ## Words written out bit by bit from R44 and R46: {OP, ZERO, LEN} -/

/-- 01, fourteen zeros, sixteen zeros. -/
theorem test_decode_table_gen :
    decode 0b01000000000000000000000000000000#32 = .cmd .crc16TableGen := by decide
/-- 10, fourteen zeros, 1000000000000101. -/
theorem test_decode_poly_fold :
    decode 0b10000000000000001000000000000101#32 = .cmd (.crc16PolyFold 32773) := by decide
/-- 11, fourteen zeros, 0000000000000011. -/
theorem test_decode_checksum :
    decode 0b11000000000000000000000000000011#32 = .cmd (.checksum8Accum 3) := by decide
/-- R49, one word for each reason. -/
theorem test_decode_reserved :
    decode 0x00000009#32 = .reserved .opZero ∧ decode 0xC0010003#32 = .reserved .zeroFieldNotZero ∧
      decode 0x40008000#32 = .reserved .tableGenWithLen := by decide
/-- R67, R80: the command words `0x80000000 | LEN` and `0xC0000000 | LEN`. -/
theorem test_encode :
    encode .crc16TableGen = 0x40000000#32 ∧ encode (.crc16PolyFold 9) = 0x80000009#32 ∧
      encode (.checksum8Accum 65535) = 0xC000FFFF#32 := by decide
theorem test_table_word :
    decodeTableWord 32 0x80000000 = some (.crc16PolyFold 0) ∧ decodeTableWord 32 0x80010000 = none := by decide

/-- The three legal words run as the first command after reset. -/
theorem test_fetch_first :
    (nextOf? (step (State.reset.withFetchWord 32 0x40000000))).map (·.phase) = some .gen ∧
    (nextOf? (step (State.reset.withFetchWord 32 0x80000003))).map (·.phase) = some .gen ∧
    (nextOf? (step (State.reset.withFetchWord 32 0xC0000003))).map (·.phase) = some .accum := by decide

/-! ## Memory -/

/-- Writing 0x00 removes the entry; a write keeps the indices rising. -/
theorem test_memory_canonical :
    Memory.write (Memory.write (Memory.write [] 5 0x11#8) 2 0x22#8) 5 0x00#8 = [(2, 0x22#8)] := by decide
theorem test_buffer_of_bytes :
    (Buffer.ofBytes [0x01#8, 0x00#8, 0x03#8]).size = 3#16 ∧
      (Buffer.ofBytes [0x01#8, 0x00#8, 0x03#8]).cells = [(0, 0x01#8), (2, 0x03#8)] := by decide
theorem test_buffer_edge :
    (Buffer.ofBytes [0x01#8]).read? 0 = some 0x01#8 ∧ (Buffer.ofBytes [0x01#8]).read? 1 = none := by decide

/-! ## The table: spec/95_test_vectors.md section 2, and V-T2 to V-T10 -/

def listedTable0 : List U16 :=
  [0x0000#16, 0x1021#16, 0x2042#16, 0x3063#16, 0x4084#16, 0x50A5#16, 0x60C6#16, 0x70E7#16,
   0x8108#16, 0x9129#16, 0xA14A#16, 0xB16B#16, 0xC18C#16, 0xD1AD#16, 0xE1CE#16, 0xF1EF#16,
   0x1231#16, 0x0210#16, 0x3273#16, 0x2252#16, 0x52B5#16, 0x4294#16, 0x72F7#16, 0x62D6#16,
   0x9339#16, 0x8318#16, 0xB37B#16, 0xA35A#16, 0xD3BD#16, 0xC39C#16, 0xF3FF#16, 0xE3DE#16]

def listedTable1 : List U16 :=
  [0x2462#16, 0x3443#16, 0x0420#16, 0x1401#16, 0x64E6#16, 0x74C7#16, 0x44A4#16, 0x5485#16,
   0xA56A#16, 0xB54B#16, 0x8528#16, 0x9509#16, 0xE5EE#16, 0xF5CF#16, 0xC5AC#16, 0xD58D#16,
   0x3653#16, 0x2672#16, 0x1611#16, 0x0630#16, 0x76D7#16, 0x66F6#16, 0x5695#16, 0x46B4#16,
   0xB75B#16, 0xA77A#16, 0x9719#16, 0x8738#16, 0xF7DF#16, 0xE7FE#16, 0xD79D#16, 0xC7BC#16]

def listedTable2 : List U16 :=
  [0x48C4#16, 0x58E5#16, 0x6886#16, 0x78A7#16, 0x0840#16, 0x1861#16, 0x2802#16, 0x3823#16,
   0xC9CC#16, 0xD9ED#16, 0xE98E#16, 0xF9AF#16, 0x8948#16, 0x9969#16, 0xA90A#16, 0xB92B#16,
   0x5AF5#16, 0x4AD4#16, 0x7AB7#16, 0x6A96#16, 0x1A71#16, 0x0A50#16, 0x3A33#16, 0x2A12#16,
   0xDBFD#16, 0xCBDC#16, 0xFBBF#16, 0xEB9E#16, 0x9B79#16, 0x8B58#16, 0xBB3B#16, 0xAB1A#16]

def listedTable3 : List U16 :=
  [0x6CA6#16, 0x7C87#16, 0x4CE4#16, 0x5CC5#16, 0x2C22#16, 0x3C03#16, 0x0C60#16, 0x1C41#16,
   0xEDAE#16, 0xFD8F#16, 0xCDEC#16, 0xDDCD#16, 0xAD2A#16, 0xBD0B#16, 0x8D68#16, 0x9D49#16,
   0x7E97#16, 0x6EB6#16, 0x5ED5#16, 0x4EF4#16, 0x3E13#16, 0x2E32#16, 0x1E51#16, 0x0E70#16,
   0xFF9F#16, 0xEFBE#16, 0xDFDD#16, 0xCFFC#16, 0xBF1B#16, 0xAF3A#16, 0x9F59#16, 0x8F78#16]

def listedTable4 : List U16 :=
  [0x9188#16, 0x81A9#16, 0xB1CA#16, 0xA1EB#16, 0xD10C#16, 0xC12D#16, 0xF14E#16, 0xE16F#16,
   0x1080#16, 0x00A1#16, 0x30C2#16, 0x20E3#16, 0x5004#16, 0x4025#16, 0x7046#16, 0x6067#16,
   0x83B9#16, 0x9398#16, 0xA3FB#16, 0xB3DA#16, 0xC33D#16, 0xD31C#16, 0xE37F#16, 0xF35E#16,
   0x02B1#16, 0x1290#16, 0x22F3#16, 0x32D2#16, 0x4235#16, 0x5214#16, 0x6277#16, 0x7256#16]

def listedTable5 : List U16 :=
  [0xB5EA#16, 0xA5CB#16, 0x95A8#16, 0x8589#16, 0xF56E#16, 0xE54F#16, 0xD52C#16, 0xC50D#16,
   0x34E2#16, 0x24C3#16, 0x14A0#16, 0x0481#16, 0x7466#16, 0x6447#16, 0x5424#16, 0x4405#16,
   0xA7DB#16, 0xB7FA#16, 0x8799#16, 0x97B8#16, 0xE75F#16, 0xF77E#16, 0xC71D#16, 0xD73C#16,
   0x26D3#16, 0x36F2#16, 0x0691#16, 0x16B0#16, 0x6657#16, 0x7676#16, 0x4615#16, 0x5634#16]

def listedTable6 : List U16 :=
  [0xD94C#16, 0xC96D#16, 0xF90E#16, 0xE92F#16, 0x99C8#16, 0x89E9#16, 0xB98A#16, 0xA9AB#16,
   0x5844#16, 0x4865#16, 0x7806#16, 0x6827#16, 0x18C0#16, 0x08E1#16, 0x3882#16, 0x28A3#16,
   0xCB7D#16, 0xDB5C#16, 0xEB3F#16, 0xFB1E#16, 0x8BF9#16, 0x9BD8#16, 0xABBB#16, 0xBB9A#16,
   0x4A75#16, 0x5A54#16, 0x6A37#16, 0x7A16#16, 0x0AF1#16, 0x1AD0#16, 0x2AB3#16, 0x3A92#16]

def listedTable7 : List U16 :=
  [0xFD2E#16, 0xED0F#16, 0xDD6C#16, 0xCD4D#16, 0xBDAA#16, 0xAD8B#16, 0x9DE8#16, 0x8DC9#16,
   0x7C26#16, 0x6C07#16, 0x5C64#16, 0x4C45#16, 0x3CA2#16, 0x2C83#16, 0x1CE0#16, 0x0CC1#16,
   0xEF1F#16, 0xFF3E#16, 0xCF5D#16, 0xDF7C#16, 0xAF9B#16, 0xBFBA#16, 0x8FD9#16, 0x9FF8#16,
   0x6E17#16, 0x7E36#16, 0x4E55#16, 0x5E74#16, 0x2E93#16, 0x3EB2#16, 0x0ED1#16, 0x1EF0#16]
/-- The table of R58 is the one listed. -/
theorem test_listed_table :
    (List.range 256).map (fun i => entry (BitVec.ofNat 8 i)) =
      listedTable0 ++ listedTable1 ++ listedTable2 ++ listedTable3 ++ listedTable4 ++ listedTable5 ++
        listedTable6 ++ listedTable7 := by decide +kernel

/-- V-T2, V-T3, V-T4: the test is on bit 15 before the shift. -/
theorem test_round :
    crcRound 0x8000#16 = 0x1021#16 ∧ crcRound 0x7FFF#16 = 0xFFFE#16 ∧ crcRound 0xFFFF#16 = 0xEFDF#16 := by decide
/-- V-T8, R66: `W` after each round of entry 0x1D. -/
theorem test_rounds_1D :
    (List.range 9).map (fun k => crcRounds k (highOctet 0x1D#8)) =
      [0x1D00#16, 0x3A00#16, 0x7400#16, 0xE800#16, 0xC021#16, 0x9063#16, 0x30E7#16, 0x61CE#16, 0xC39C#16] := by
  decide

/-! ## CRC and checksum: V-F and V-C -/

/-- The ASCII bytes of "123456789". -/
def digits : Buffer := Buffer.ofBytes [0x31#8, 0x32#8, 0x33#8, 0x34#8, 0x35#8, 0x36#8, 0x37#8, 0x38#8, 0x39#8]

/-- V-F8, V-F11: the accumulators after each byte. -/
theorem test_crc_digits :
    (List.range 10).map (crc16 digits) =
      [0x1D0F#16, 0xEAEE#16, 0xA475#16, 0x865E#16, 0xD999#16, 0xA5A2#16, 0x11DA#16, 0x9EA4#16, 0x712C#16, 0xE5CC#16] := by
  decide
/-- V-F6: the order of bytes shows. -/
theorem test_crc_order :
    crc16 (Buffer.ofBytes [0x01#8, 0x02#8]) 2 = 0x97B3#16 ∧ crc16 (Buffer.ofBytes [0x02#8, 0x01#8]) 2 = 0xF283#16 := by
  decide
/-- V-C14, V-C9: the checksum after each byte; a carry out of 8 bits is discarded. -/
theorem test_checksum_prefixes :
    (List.range 5).map (checksum8 (Buffer.ofBytes [0x01#8, 0x02#8, 0x03#8, 0xFA#8])) =
      [0x00#8, 0xFF#8, 0xFD#8, 0xFA#8, 0x00#8] ∧ checksum8 (Buffer.ofBytes [0xFF#8, 0xFF#8]) 2 = 0x02#8 := by decide

/-! ## States for the step tests and the witnesses -/

/-- Idle, no table, the buffer [0x01, 0x02] bound. -/
def idleState : State := { State.reset with cmdBuf := Buffer.ofBytes [0x01#8, 0x02#8] }

/-- Idle, the table valid. -/
def validState : State := generated (wholeTable idleState.table) idleState

/-- Word `c` at the port. -/
def withWord (c : U32) (s : State) : State := withPort (some c) s.cmdBuf s

/-- Program P5: two entries of the table as listed, a fold of [0x01, 0x02] in progress. -/
def p5State : State :=
  { enterFold (takeBuffer idleState.cmdBuf (latchCommand .crc16PolyFold 2 idleState)) with
    tvalid := true
    table := writeTable (writeTable State.reset.table 0x1C#8 0xD3BD#16) 0xDE#8 0x2AB3#16 }

/-- GEN just before the commit of entry 3 (V-T14). -/
def gen3State : State :=
  { enterGen (latchCommand .crc16TableGen 0 idleState) with ti := 3#8, rk := 8, w := 0x3063#16 }

/-- A checksum of [0x01, 0x02, 0x03] just accepted (program P3). -/
def p3State : State :=
  enterAccum (takeBuffer (Buffer.ofBytes [0x01#8, 0x02#8, 0x03#8]) (latchCommand .checksum8Accum 3 State.reset))

/-- FOLD at its start with the whole table, one byte to fold, and a word waiting. -/
def foldState : State :=
  enterFold (takeBuffer validState.cmdBuf { validState with op := .crc16PolyFold, len := 1#16, cmdWord := some 0x40000000#32 })

/-! ## One step each -/

/-- P5 step 1: `ACC` = 0xDCBD, `IDX` = 1. -/
theorem test_fold_byte :
    (nextOf? (step p5State)).map (fun t => (t.acc, t.idx, t.rvalid)) = some (0xDCBD#16, 1#16, false) := by decide
/-- P5 step 3: `RESULT` = `ACC`, ready. -/
theorem test_fold_finish :
    (nextOf? (step { p5State with idx := 2#16, acc := 0x97B3#16 })).map (fun t => (t.result, t.rvalid, t.phase)) =
      some (0x97B3#16, true, .idle) := by decide
/-- V-T14, R61: the commit of entry 3 starts entry 4 with `W` = 0x0400. -/
theorem test_gen_commit :
    (nextOf? (step gen3State)).map (fun t => (readTable t.table 3#8, t.ti, t.rk.val, t.w)) =
      some (some 0x3063#16, 4#8, 0, 0x0400#16) := by decide
/-- R61: the last commit sets `TVALID` and, for crc16_table_gen, leads to IDLE. -/
theorem test_gen_last :
    (nextOf? (step { gen3State with ti := 255#8 })).map (fun t => (t.tvalid, t.phase)) = some (true, .idle) := by
  decide
/-- P3: (`SUM`, `CSUM`) = (1, 0xFF) after the first byte. -/
theorem test_accum_byte :
    (nextOf? (step p3State)).map (fun t => (t.sum, t.csum, t.idx)) = some (1#32, 0xFF#8, 1#16) := by decide
/-- P3: the end delivers zext_16 of `CSUM`. -/
theorem test_accum_finish :
    (nextOf? (step { p3State with idx := 3#16, csum := 0xFA#8 })).map (fun t => (t.result, t.rvalid)) =
      some (0x00FA#16, true) := by decide
/-- R68: with `LEN` = 0 and `TVALID` = 0 a fold generates the table first. -/
theorem test_fold_empty_generates :
    (nextOf? (step (withWord 0x80000000#32 State.reset))).map (fun t => (t.phase, t.op)) =
      some (.gen, .crc16PolyFold) := by decide
/-- V-F20: a length above the buffer is refused. -/
theorem test_length_refused :
    refusalOf? (step (withWord 0x80000003#32 idleState)) = some .lengthExceedsBuffer := by decide
/-- R49: a reserved word is refused, and tested before the length. -/
theorem test_reserved_refused :
    refusalOf? (step (withWord 0x8001FFFF#32 idleState)) = some (.reservedCommand .zeroFieldNotZero) := by decide
/-- V-S2, R113: a word presented in GEN waits. -/
theorem test_word_waits :
    (nextOf? (step (withWord 0x80000000#32 gen3State))).map (·.cmdWord) = some (some 0x80000000#32) := by decide
/-- V-T13, R107: reset in GEN leaves `TVALID` = 0 and IDLE. -/
theorem test_reset_in_gen :
    (nextOf? (step (hostReset gen3State))).map (fun t => (t.tvalid, t.phase, readTable t.table 0#8)) =
      some (false, .idle, none) := by decide
/-- V-S5, R116: after crc16_table_gen no result is visible. -/
theorem test_result_hidden :
    (nextOf? (step (withWord 0x40000000#32 { State.reset with rvalid := true, result := 0x00FA#16 }))).map
      (fun t => (observe t).result) = some none := by decide
/-- R53: a command line and its alias. -/
theorem test_assemble :
    assemble "crc16_poly_fold 9".toList = some (.crc16PolyFold 9) ∧ assemble "CSUM8 0x03".toList = some (.checksum8Accum 3) := by
  decide
/-- P3 as a host script, line by line. -/
def scriptP3 : List ScriptLine :=
  [.reset, .bind [0x01#8, 0x02#8, 0x03#8], .command (.checksum8Accum 3), .expectResult 0x00FA#16,
   .bind [0x01#8, 0x02#8, 0x03#8, 0xFA#8], .command (.checksum8Accum 4), .expectResult 0x0000#16,
   .expectElement (.tvalid false)]
/-- P3 (R55): its `expect` lines are true where they stand. -/
theorem test_script_P3 : scriptMeets scriptP3 State.reset = true := by decide +kernel
/-- An `expect` line that is false is not met (P3 with 0x00FB for 0x00FA). -/
theorem test_script_expect_false :
    scriptMeets (scriptP3.take 3 ++ [.expectResult 0x00FB#16]) State.reset = false := by decide +kernel
/-- R55: a buffer is bound for the following commands, a reset between them or not; 0x01 has checksum 0xFF (R91 b). -/
theorem test_script_bind_then_reset :
    scriptMeets [.bind [0x01#8], .reset, .command (.checksum8Accum 1), .expectResult 0x00FF#16] State.reset = true := by
  decide +kernel
/-- A call waits for an earlier word at the port and answers with its own checksum (S4: [0x01, 0x02, 0x03] gives 0xFA). -/
theorem test_call_after_waiting_word :
    callChecksum8 (Buffer.ofBytes [0x01#8, 0x02#8, 0x03#8]) 3 (withWord 0xC0000000#32 p3State) = some 0xFA#8 := by
  decide +kernel

/-! ## Witnesses: states and operands that meet the hypotheses of each obligation -/

theorem validState_full : TableFull validState.table := wholeTable_full _

theorem idleState_inv : Inv idleState :=
  inv_of_idle rfl (fun h => by cases h) Buffer.empty_wf (Buffer.ofBytes_wf _)

theorem validState_inv : Inv validState :=
  inv_of_idle rfl (fun _ => validState_full) Buffer.empty_wf (Buffer.ofBytes_wf _)

theorem foldState_inv : Inv foldState :=
  inv_enterFold rfl validState_full rfl (by decide) rfl (Buffer.ofBytes_wf _) (Buffer.ofBytes_wf _)

theorem test_witness_DecodeEncode : Instr.WellFormed (.checksum8Accum 65535) := by decide
theorem test_witness_EncodeDecode : decode 0x8000FFFF#32 = .cmd (.crc16PolyFold 65535) := by decide
theorem test_witness_ReservedWords :
    (withWord 0xFFFFFFFF#32 idleState).resetLine = false ∧ (withWord 0xFFFFFFFF#32 idleState).phase = .idle ∧
      (withWord 0xFFFFFFFF#32 idleState).cmdWord = some 0xFFFFFFFF#32 ∧
      decode 0xFFFFFFFF#32 = .reserved .zeroFieldNotZero := by decide
/-- In IDLE and in FOLD. -/
theorem test_witness_StepRunsDecoded :
    ((withWord 0x80000002#32 idleState).resetLine = false ∧
      (withWord 0x80000002#32 idleState).cmdWord = some 0x80000002#32 ∧
      decode 0x80000002#32 = .cmd (.crc16PolyFold 2)) ∧
    (foldState.resetLine = false ∧ foldState.cmdWord = some 0x40000000#32 ∧ foldState.phase = .fold ∧
      decode 0x40000000#32 = .cmd .crc16TableGen) := ⟨⟨rfl, rfl, by decide⟩, rfl, rfl, rfl, by decide⟩
theorem test_witness_FetchWordRuns : decode 0xC000FFFF#32 = .cmd (.checksum8Accum 65535) := by decide
/-- One state for each clause: reset, busy, idle without a word, idle with a reserved and with a legal word. -/
theorem test_witness_EventPriority :
    (hostReset gen3State).resetLine = true ∧
    (gen3State.resetLine = false ∧ gen3State.phase ≠ .idle) ∧
    (idleState.resetLine = false ∧ idleState.phase = .idle ∧ idleState.cmdWord = none) ∧
    decode 0x3FFFFFFF#32 = .reserved .opZero ∧ decode 0x40000000#32 = .cmd .crc16TableGen := by decide
/-- With `TVALID` = 0 and with `TVALID` = 1. -/
theorem test_witness_TableGenCommand :
    (idleState.phase = .idle ∧ idleState.resetLine = false ∧ idleState.tvalid = false) ∧
    (validState.phase = .idle ∧ validState.resetLine = false ∧ validState.tvalid = true ∧
      TableFull validState.table) := ⟨⟨rfl, rfl, rfl⟩, rfl, rfl, rfl, validState_full⟩
/-- `LEN` = 0 and `LEN` = `BUFSZ`, with and without a table. -/
theorem test_witness_PolyFoldCommand :
    (idleState.phase = .idle ∧ idleState.resetLine = false ∧ idleState.tvalid = false ∧
      0 ≤ idleState.cmdBuf.size.toNat ∧ 2 ≤ idleState.cmdBuf.size.toNat) ∧
    (validState.phase = .idle ∧ validState.resetLine = false ∧ validState.tvalid = true ∧
      TableFull validState.table ∧ 2 ≤ validState.cmdBuf.size.toNat) :=
  ⟨by decide, rfl, rfl, rfl, validState_full, show 2 ≤ idleState.cmdBuf.size.toNat by decide⟩
theorem test_witness_ChecksumCommand :
    idleState.phase = .idle ∧ idleState.resetLine = false ∧ 2 ≤ idleState.cmdBuf.size.toNat := by decide
/-- With `TVALID` = 0 and with `TVALID` = 1. -/
theorem test_witness_CommandRefinement :
    (Instr.WellFormed (.crc16PolyFold 2) ∧ idleState.phase = .idle ∧ idleState.resetLine = false ∧
      idleState.tvalid = false ∧ acceptable (.crc16PolyFold 2) idleState = true ∧
      acceptable .crc16TableGen idleState = true ∧ acceptable (.checksum8Accum 0) idleState = true) ∧
    (validState.phase = .idle ∧ validState.resetLine = false ∧ validState.tvalid = true ∧
      TableFull validState.table ∧ acceptable .crc16TableGen validState = true ∧
      acceptable (.crc16PolyFold 2) validState = true) :=
  ⟨by decide, rfl, rfl, rfl, validState_full, rfl, show acceptable (.crc16PolyFold 2) idleState = true by decide⟩
/-- Both sides of the boundary: `LEN` = `BUFSZ` and `LEN` = `BUFSZ` + 1. -/
theorem test_witness_LengthContract :
    idleState.phase = .idle ∧ ¬ idleState.cmdBuf.size.toNat < 2 ∧ idleState.cmdBuf.size.toNat < 3 := by decide
theorem test_witness_BusyHoldsCommand : gen3State.phase ≠ .idle := by decide
/-- A round at `RK` = 7, a commit at `TI` = 254, the last commit for either operation, any state entering GEN. -/
theorem test_witness_GenMicroSteps :
    (({ gen3State with rk := 7 } : State).phase = .gen ∧ ({ gen3State with rk := 7 } : State).rk.val < 8) ∧
    (({ gen3State with ti := 254#8 } : State).rk.val = 8 ∧ ({ gen3State with ti := 254#8 } : State).ti.toNat < 255) ∧
    (({ gen3State with ti := 255#8, op := .crc16PolyFold } : State).ti = 255#8 ∧
      ({ gen3State with ti := 255#8, op := .crc16PolyFold } : State).op = .crc16PolyFold) ∧
    (({ gen3State with ti := 255#8 } : State).rk.val = 8 ∧ ({ gen3State with ti := 255#8 } : State).op ≠ .crc16PolyFold) ∧
    idleState.resetLine = false := by decide
/-- The last byte, the end, and the start of a whole fold. -/
theorem test_witness_FoldMicroSteps :
    (({ p5State with idx := 1#16, acc := 0xDCBD#16 } : State).phase = .fold ∧
      ({ p5State with idx := 1#16, acc := 0xDCBD#16 } : State).idx.toNat < p5State.len.toNat ∧
      p5State.len.toNat ≤ p5State.buf.size.toNat ∧
      readTable p5State.table ((0xDCBD#16).extractLsb' 8 8 ^^^ p5State.buf.byteAt 1) = some 0x2AB3#16) ∧
    (({ p5State with idx := 2#16 } : State).phase = .fold ∧ ({ p5State with idx := 2#16 } : State).idx = p5State.len) ∧
    (validState.resetLine = false ∧ TableFull validState.table ∧ validState.len.toNat ≤ validState.buf.size.toNat ∧
      validState.len = 0#16) ∧
    (foldState.resetLine = false ∧ foldState.op = .crc16PolyFold ∧ foldState.len.toNat ≤ foldState.buf.size.toNat) :=
  ⟨by decide, by decide, ⟨rfl, validState_full, by show (0#16).toNat ≤ (0#16).toNat; decide, rfl⟩, rfl, rfl,
    (foldState_inv.foldLoop rfl).len⟩
theorem test_witness_AccumMicroSteps :
    (({ p3State with idx := 2#16 } : State).phase = .accum ∧
      ({ p3State with idx := 2#16 } : State).idx.toNat < p3State.len.toNat ∧
      p3State.len.toNat ≤ p3State.buf.size.toNat) ∧
    ({ p3State with idx := 3#16 } : State).idx = p3State.len ∧
    (p3State.resetLine = false ∧ State.reset.resetLine = false ∧ State.reset.len = 0#16 ∧
      State.reset.len.toNat ≤ State.reset.buf.size.toNat) := by decide
theorem test_witness_FoldRule : Inv foldState ∧ foldState.phase = .fold := ⟨foldState_inv, rfl⟩
/-- Two buffers that agree on their first byte only. -/
theorem test_witness_PrefixLaw :
    (∀ k, k < 1 → (Buffer.ofBytes [0x01#8, 0x02#8]).byteAt k = (Buffer.ofBytes [0x01#8, 0x03#8]).byteAt k) ∧
      (Buffer.ofBytes [0x01#8, 0x02#8]).byteAt 1 ≠ (Buffer.ofBytes [0x01#8, 0x03#8]).byteAt 1 := by decide
theorem test_witness_ShortInputsDistinct :
    crc16 (Buffer.ofBytes [0x41#8]) 1 = 0x9479#16 ∧
      crc16 (Buffer.ofBytes [0x00#8, 0x00#8]) 2 = 0x84C0#16 ∧ (0x01#8 : U8) ≠ 0x02#8 := by decide
/-- V-F5: the empty message, whose CRC is the seed. -/
theorem test_witness_AppendedCrcIsZero :
    (∀ k, k < 0 → (Buffer.ofBytes [0x1D#8, 0x0F#8]).byteAt k = Buffer.empty.byteAt k) ∧
      (Buffer.ofBytes [0x1D#8, 0x0F#8]).byteAt 0 = (crc16 Buffer.empty 0).extractLsb' 8 8 ∧
      (Buffer.ofBytes [0x1D#8, 0x0F#8]).byteAt 1 = (crc16 Buffer.empty 0).extractLsb' 0 8 := by decide
/-- V-C13: [0x01, 0x02, 0x03] and its checksum 0xFA. -/
theorem test_witness_ReceiverObtainsZero :
    (∀ k, k < 3 → (Buffer.ofBytes [0x01#8, 0x02#8, 0x03#8, 0xFA#8]).byteAt k =
      (Buffer.ofBytes [0x01#8, 0x02#8, 0x03#8]).byteAt k) ∧
      (Buffer.ofBytes [0x01#8, 0x02#8, 0x03#8, 0xFA#8]).byteAt 3 =
        checksum8 (Buffer.ofBytes [0x01#8, 0x02#8, 0x03#8]) 3 := by decide
theorem test_witness_SumWidthIrrelevant : 8 ≤ 8 ∧ byteSum digits 9 = 477 := by decide
theorem test_witness_SumNeverWraps : 65535 ≤ 65535 := le_rfl
theorem test_witness_StepKeepsInv : Inv foldState ∧ ∃ t, step foldState = .next t :=
  ⟨foldState_inv, by
    rw [step_of_busy rfl (by decide), engineStep_fold rfl]
    exact ⟨_, (foldStep_of_lt (by decide)).trans (foldByte_eq (by decide) (validState_full _))⟩⟩
theorem test_witness_HostMovesKeepInv : Inv foldState ∧ digits.wf := ⟨foldState_inv, Buffer.ofBytes_wf _⟩
theorem test_witness_NoFault : Inv foldState ∧ Inv idleState := ⟨foldState_inv, idleState_inv⟩
theorem test_witness_ReachesIdle : Inv foldState ∧ foldState.resetLine = false ∧ foldState.phase ≠ .idle :=
  ⟨foldState_inv, rfl, by decide⟩
/-- A word that will be accepted, and (same buffer) a length that will not. -/
theorem test_witness_PortWordWaits :
    (Inv foldState ∧ foldState.resetLine = false ∧ foldState.phase ≠ .idle ∧
      foldState.cmdWord = some 0x40000000#32 ∧ decode 0x40000000#32 = .cmd .crc16TableGen ∧
      acceptable .crc16TableGen foldState = true) ∧
    decode 0x80000003#32 = .cmd (.crc16PolyFold 3) ∧ acceptable (.crc16PolyFold 3) foldState = false :=
  ⟨⟨foldState_inv, rfl, by decide, rfl, by decide, rfl⟩, by decide,
    show acceptable (.crc16PolyFold 3) idleState = false by decide⟩
/-- A step with a valid table, a step of GEN that writes, the step that sets `TVALID`. -/
theorem test_witness_TableLifetime :
    (Inv foldState ∧ foldState.resetLine = false ∧ foldState.tvalid = true ∧ ∃ t, step foldState = .next t) ∧
    (nextOf? (step gen3State)).map (fun t => readTable t.table 3#8) ≠ some (readTable gen3State.table 3#8) ∧
    (nextOf? (step { gen3State with ti := 255#8 })).map (·.tvalid) = some true :=
  ⟨⟨foldState_inv, rfl, rfl, test_witness_StepKeepsInv.2⟩, by decide, by decide⟩
/-- A busy step, and the acceptance of either command that takes a buffer. -/
theorem test_witness_BufferReadOnly :
    (nextOf? (step gen3State)).isSome ∧ (nextOf? (step (withWord 0x80000002#32 idleState))).isSome ∧
      (nextOf? (step (withWord 0xC0000002#32 idleState))).isSome ∧ gen3State.resetLine = false := by decide
/-- A step from each PHASE, at its end and before it. -/
theorem test_witness_PhaseMoves :
    (nextOf? (step gen3State)).isSome ∧ (nextOf? (step { gen3State with ti := 255#8 })).isSome ∧
      (nextOf? (step p5State)).isSome ∧ (nextOf? (step { p5State with idx := 2#16 })).isSome ∧
      (nextOf? (step p3State)).isSome ∧ (nextOf? (step { p3State with idx := 3#16 })).isSome ∧
      (nextOf? (step idleState)).isSome ∧ (nextOf? (step (withWord 0x40000000#32 idleState))).isSome := by decide
theorem test_witness_TableGenFrame :
    idleState.phase = .idle ∧ (nextOf? (exec .crc16TableGen idleState)).isSome ∧
      (nextOf? (exec .crc16TableGen { idleState with tvalid := true })).isSome := by decide
theorem test_witness_PolyFoldFrame :
    idleState.phase = .idle ∧ (nextOf? (exec (.crc16PolyFold 2) idleState)).isSome ∧
      (nextOf? (exec (.crc16PolyFold 2) { idleState with tvalid := true })).isSome := by decide
theorem test_witness_ChecksumFrame :
    idleState.phase = .idle ∧ (nextOf? (exec (.checksum8Accum 2) idleState)).isSome := by decide
theorem test_witness_MicroStepFrame :
    (nextOf? (engineStep gen3State)).isSome ∧ (nextOf? (engineStep p5State)).isSome ∧
      (nextOf? (engineStep p3State)).isSome ∧ (nextOf? (engineStep { p3State with idx := 3#16 })).isSome := by decide
/-- An acceptance, a step that sets `RVALID`, a step that clears it, a step that changes `RESULT`. -/
theorem test_witness_ResultDelivery :
    (idleState.phase = .idle ∧ (nextOf? (exec (.checksum8Accum 2) idleState)).isSome) ∧
    (({ p5State with idx := 2#16 } : State).rvalid = false ∧
      (nextOf? (step { p5State with idx := 2#16 })).map (·.rvalid) = some true) ∧
    (nextOf? (step (withWord 0x40000000#32 { idleState with rvalid := true }))).map (·.rvalid) = some false ∧
    (nextOf? (step { p5State with idx := 2#16 })).map (·.result) ≠ some p5State.result := by decide
/-- A block without a table and one with it, bound to buffers that differ above `LEN` = 1. -/
theorem test_witness_ResultsArePure :
    Inv idleState ∧ Inv (hostBind (Buffer.ofBytes [0x01#8, 0x07#8, 0x09#8]) validState) ∧
      idleState.phase = .idle ∧ validState.phase = .idle ∧ idleState.resetLine = false ∧
      validState.resetLine = false ∧ 1 ≤ idleState.cmdBuf.size.toNat ∧
      1 ≤ (Buffer.ofBytes [0x01#8, 0x07#8, 0x09#8]).size.toNat ∧
      ∀ k, k < 1 → idleState.cmdBuf.byteAt k = (Buffer.ofBytes [0x01#8, 0x07#8, 0x09#8]).byteAt k :=
  ⟨idleState_inv, inv_of_idle rfl (fun _ => validState_full) Buffer.empty_wf (Buffer.ofBytes_wf _), rfl, rfl, rfl, rfl,
    by decide, by decide, by decide⟩
theorem test_witness_CallsAnswer :
    Inv validState ∧ waiting validState = false ∧ digits.wf ∧ 9 ≤ digits.size.toNat ∧ 0 ≤ digits.size.toNat :=
  ⟨validState_inv, rfl, Buffer.ofBytes_wf _, by decide, by decide⟩
theorem test_witness_AnyOrderOfCallers :
    Inv idleState ∧ waiting idleState = false ∧
      (nextOf? (runScript [.bind [0x05#8], .reset] idleState)).isSome ∧ digits.wf ∧ 9 ≤ digits.size.toNat :=
  ⟨idleState_inv, rfl, rfl, Buffer.ofBytes_wf _, by decide⟩
/-- A ready block, a list of bytes and a size above it, an acceptable command and one that is not. -/
theorem test_witness_ScriptLines :
    Inv idleState ∧ waiting idleState = false ∧ [0x05#8, 0x06#8].length ≤ 3 ∧
      Instr.WellFormed (.checksum8Accum 2) ∧ acceptable (.checksum8Accum 2) idleState = true ∧
      Instr.WellFormed (.checksum8Accum 3) ∧ acceptable (.checksum8Accum 3) idleState = false :=
  ⟨idleState_inv, rfl, by decide, by decide, by decide, by decide, by decide⟩
/-- Byte 1 of a fold of one byte. -/
theorem test_witness_UnreadBytesMayChange :
    Inv foldState ∧ foldState.phase ≠ .idle ∧ foldState.len.toNat ≤ 1 := ⟨foldState_inv, by decide, by decide⟩

end Sys2Proof.Tests
end

section
/-! SUPPORT. The invariants of spec/10_state.md R27: a way into them for each busy phase, that every step and every
host move keeps them, and what they say of a block in progress. -/

namespace Sys2Proof.Machine

variable {s t : State}

/-! ## Ways into the invariants, one for each busy phase -/

/-- In GEN `TVALID` = 0, so only `GenInv` and the form of the buffers matter. -/
theorem inv_of_gen (hp : s.phase = .gen) (hg : GenInv s) (hr : s.rvalid = false) (hb : s.buf.wf)
    (hc : s.cmdBuf.wf) : Inv s where
  foldValid h := by simp [hp] at h
  table h := by simp [hg.notValid] at h
  gen _ := hg
  foldOp h := by simp [hp] at h
  accumOp h := by simp [hp] at h
  foldLoop h := by simp [hp] at h
  accumLoop h := by simp [hp] at h
  acc h := by simp [hp] at h
  sum h := by simp [hp] at h
  csum h := by simp [hp] at h
  rvalid h := by simp [hr] at h
  buf := hb
  cmdBuf := hc

theorem inv_of_fold (hp : s.phase = .fold) (hv : s.tvalid = true) (ht : TableFull s.table)
    (ho : s.op = .crc16PolyFold) (hl : ByteLoopInv s) (ha : s.acc = crc16 s.buf s.idx.toNat)
    (hr : s.rvalid = false) (hb : s.buf.wf) (hc : s.cmdBuf.wf) : Inv s where
  foldValid _ := hv
  table _ := ht
  gen h := by simp [hp] at h
  foldOp _ := ho
  accumOp h := by simp [hp] at h
  foldLoop _ := hl
  accumLoop h := by simp [hp] at h
  acc _ := ha
  sum h := by simp [hp] at h
  csum h := by simp [hp] at h
  rvalid h := by simp [hr] at h
  buf := hb
  cmdBuf := hc

theorem inv_of_accum (hp : s.phase = .accum) (ht : s.tvalid = true → TableFull s.table)
    (ho : s.op = .checksum8Accum) (hl : ByteLoopInv s) (hs : s.sum.toNat = byteSum s.buf s.idx.toNat)
    (hk : s.csum = neg8 s.sum.toNat) (hr : s.rvalid = false) (hb : s.buf.wf) (hc : s.cmdBuf.wf) : Inv s where
  foldValid h := by simp [hp] at h
  table := ht
  gen h := by simp [hp] at h
  foldOp h := by simp [hp] at h
  accumOp _ := ho
  foldLoop h := by simp [hp] at h
  accumLoop _ := hl
  acc h := by simp [hp] at h
  sum _ := hs
  csum _ := hk
  rvalid h := by simp [hr] at h
  buf := hb
  cmdBuf := hc

/-- At the start of GEN nothing is generated yet, and `W` is entry 0 before its first round (R60). -/
theorem inv_enterGen (hv : s.tvalid = false)
    (ho : s.op = .crc16TableGen ∨ (s.op = .crc16PolyFold ∧ s.len.toNat ≤ s.buf.size.toNat))
    (hr : s.rvalid = false) (hb : s.buf.wf) (hc : s.cmdBuf.wf) : Inv (enterGen s) :=
  inv_of_gen rfl ⟨hv, fun j hj => by simp at hj, rfl, ho⟩ hr hb hc

/-- At the start of ACCUM no byte is consumed, and `SUM` and `CSUM` are those of no byte (R89). -/
theorem inv_enterAccum (ht : s.tvalid = true → TableFull s.table) (ho : s.op = .checksum8Accum)
    (hl : s.len.toNat ≤ s.buf.size.toNat) (hr : s.rvalid = false) (hb : s.buf.wf) (hc : s.cmdBuf.wf) :
    Inv (enterAccum s) :=
  inv_of_accum rfl ht ho ⟨by simp, hl⟩ rfl neg8_zero.symm hr hb hc

/-! ## What the invariants say of a block in progress -/

/-- No result is held while a command is in progress (R27 g). -/
theorem Inv.rvalid_of_busy (h : Inv s) (hp : s.phase ≠ .idle) : s.rvalid = false := by
  cases hr : s.rvalid with
  | false => rfl
  | true => exact absurd (h.rvalid hr) hp

/-- A valid table is not under generation (R27 c). -/
theorem Inv.phase_ne_gen (h : Inv s) (hv : s.tvalid = true) : s.phase ≠ .gen := fun hp => by
  simp [(h.gen hp).notValid] at hv

/-! ## GEN -/

/-- At the commit of entry `TI` the working register is that entry. -/
theorem GenInv.w_eq_entry (h : GenInv s) (hk : s.rk.val = 8) : s.w = entry s.ti := by
  rw [h.working, hk]; rfl

/-- The commit of entry `TI` extends the generated entries by that one. -/
theorem GenInv.readTable_commitEntry (h : GenInv s) (hk : s.rk.val = 8) {j : U8} (hj : j.toNat ≤ s.ti.toNat) :
    readTable (commitEntry s).table j = some (entry j) := by
  rw [commitEntry_table, readTable_writeTable]
  split
  case isTrue he => rw [he, h.w_eq_entry hk]
  case isFalse he =>
    have hne : j.toNat ≠ s.ti.toNat := fun hn => he (BitVec.eq_of_toNat_eq hn)
    exact h.below j (by omega)

/-- The commit of entry 255 completes the table (R63). -/
theorem GenInv.tableFull_commitEntry (h : GenInv s) (hk : s.rk.val = 8) (hi : s.ti = 255#8) :
    TableFull (commitEntry s).table := fun j =>
  h.readTable_commitEntry hk (by have := j.isLt; rw [hi]; simp; omega)

theorem genInv_genRound (h : GenInv s) (hk : s.rk.val < 8) : GenInv (genRound s) where
  notValid := h.notValid
  below := h.below
  working := by
    rw [genRound_w, genRound_rk, genRound_ti, rk_succ hk, crcRounds_succ, ← h.working]
  op := h.op

theorem genInv_nextEntry (h : GenInv s) (hk : s.rk.val = 8) (hi : s.ti.toNat < 255) :
    GenInv (nextEntry (commitEntry s)) where
  notValid := h.notValid
  below j hj := h.readTable_commitEntry hk (by
    rw [nextEntry_ti, commitEntry_ti, ti_succ hi] at hj; omega)
  working := rfl
  op := h.op

/-- Where entry 255 is committed for a fold, the contract of that fold stands ready (R27 c). -/
theorem GenInv.len_of_fold (h : GenInv s) (ho : s.op = .crc16PolyFold) : s.len.toNat ≤ s.buf.size.toNat := by
  rcases h.op with hop | ⟨-, hl⟩
  · simp [ho] at hop
  · exact hl

/-! ## FOLD and ACCUM -/

/-- The loop of FOLD and ACCUM after one more byte. -/
theorem ByteLoopInv.advance (h : ByteLoopInv s) (hl : s.idx.toNat < s.len.toNat) (hi : t.idx = s.idx + 1#16)
    (hlen : t.len = s.len) (hbuf : t.buf = s.buf) : ByteLoopInv t where
  idx := by rw [hi, hlen, idx_succ hl]; omega
  len := by rw [hlen, hbuf]; exact h.len

/-- fold_byte with a full table is one fold step of the CRC. -/
theorem inv_foldEntry (h : Inv s) (hp : s.phase = .fold) (hl : s.idx.toNat < s.len.toNat) {e : U16}
    (he : readTable s.table (tableIndex s.acc (s.buf.byteAt s.idx.toNat)) = some e) : Inv (foldEntry e s) := by
  have hv := h.foldValid hp
  have hfull := h.table hv
  have hacc : (foldEntry e s).acc = crc16 s.buf (s.idx + 1#16).toNat := by
    rw [hfull] at he
    rw [foldEntry_acc, ← Option.some.inj he, idx_succ hl, crc16_succ, ← h.acc hp, fold]
  exact inv_of_fold hp hv hfull (h.foldOp hp) ((h.foldLoop hp).advance hl rfl rfl rfl) hacc
    (h.rvalid_of_busy (by simp [hp])) h.buf h.cmdBuf

/-- accum_byte adds the byte to the sum, which does not wrap (R87). -/
theorem inv_addByte (h : Inv s) (hp : s.phase = .accum) (hl : s.idx.toNat < s.len.toNat) :
    Inv (addByte (s.buf.byteAt s.idx.toNat) s) := by
  have hsum : (addByte (s.buf.byteAt s.idx.toNat) s).sum.toNat = byteSum s.buf (s.idx + 1#16).toNat := by
    have hlt := byteSum_lt s.buf (L := s.idx.toNat + 1) (by have := s.len.isLt; omega)
    rw [byteSum_succ] at hlt
    have hbyte := (s.buf.byteAt s.idx.toNat).isLt
    rw [addByte_sum, idx_succ hl, byteSum_succ, BitVec.toNat_add, h.sum hp, BitVec.toNat_setWidth,
      Nat.mod_eq_of_lt (a := BitVec.toNat _) (by omega), Nat.mod_eq_of_lt hlt]
  exact inv_of_accum hp h.table (h.accumOp hp) ((h.accumLoop hp).advance hl rfl rfl rfl) hsum rfl
    (h.rvalid_of_busy (by simp [hp])) h.buf h.cmdBuf

/-- A delivery ends in IDLE, where only the table and the buffers matter. -/
theorem inv_deliver (h : Inv s) (v : U16) : Inv (deliver v s) := inv_of_idle rfl h.table h.buf h.cmdBuf

/-! ## Steps -/

theorem inv_takeReset (h : s.cmdBuf.wf) : Inv (takeReset s) :=
  inv_of_idle rfl (fun hv => by simp at hv) Buffer.empty_wf h

/-- Every micro-step of the engine keeps the invariants. -/
theorem inv_engineStep (h : Inv s) (hs : engineStep s = .next t) : Inv t := by
  cases engineStep_cases hs with
  | idle hp ht => exact ht ▸ h
  | round hp hk ht =>
    subst ht
    exact inv_of_gen hp (genInv_genRound (h.gen hp) hk) (h.rvalid_of_busy (by simp [hp])) h.buf h.cmdBuf
  | commit hp hk hi ht =>
    subst ht
    exact inv_of_gen hp (genInv_nextEntry (h.gen hp) hk hi) (h.rvalid_of_busy (by simp [hp])) h.buf h.cmdBuf
  | lastFold hp hk hi ho ht =>
    subst ht
    exact inv_enterFold rfl ((h.gen hp).tableFull_commitEntry hk hi) ho ((h.gen hp).len_of_fold ho)
      (h.rvalid_of_busy (by simp [hp])) h.buf h.cmdBuf
  | lastIdle hp hk hi ho ht =>
    subst ht
    exact inv_of_idle rfl (fun _ => (h.gen hp).tableFull_commitEntry hk hi) h.buf h.cmdBuf
  | foldByte hp hl hb e he ht => exact ht ▸ inv_foldEntry h hp hl he
  | foldFinish hp hl ht => exact ht ▸ inv_deliver h s.acc
  | accumByte hp hl hb ht => exact ht ▸ inv_addByte h hp hl
  | accumFinish hp hl ht => exact ht ▸ inv_deliver h (s.csum.setWidth 16)

/-- Every acceptance by an idle block starts its command in a state that meets the invariants. -/
theorem inv_accepted (i : Instr) (h : Inv s) (hp : s.phase = .idle) (ha : acceptable i s = true) :
    Inv (accepted i s) := by
  have fits : ∀ L, lengthOk L s.cmdBuf = true → (lenOperand L).toNat ≤ s.cmdBuf.size.toNat := fun L hL => by
    have hL := lengthOk_iff.mp hL
    rwa [lenOperand_toNat_of_le hL]
  cases i with
  | crc16TableGen =>
    rw [accepted]
    split
    case isTrue hv => exact inv_of_idle hp h.table h.buf h.cmdBuf
    case isFalse hv => exact inv_enterGen (by simpa using hv) (.inl rfl) rfl h.buf h.cmdBuf
  | crc16PolyFold L =>
    rw [accepted, enterFoldOrGen]
    split
    case isTrue hv => exact inv_enterFold hv (h.table hv) rfl (fits L ha) rfl h.cmdBuf h.cmdBuf
    case isFalse hv => exact inv_enterGen (by simpa using hv) (.inr ⟨rfl, fits L ha⟩) rfl h.cmdBuf h.cmdBuf
  | checksum8Accum L => exact inv_enterAccum h.table rfl (fits L ha) rfl h.cmdBuf h.cmdBuf

theorem inv_step (h : Inv s) (hs : step s = .next t) : Inv t := by
  cases step_cases hs with
  | reset hr ht => exact ht ▸ inv_takeReset h.cmdBuf
  | engine hr hp ht => exact inv_engineStep h ht
  | wait hr hp hw ht => exact ht ▸ h
  | accept hr hp c hw i hd ha ht => exact ht ▸ inv_accepted i h hp ha

/-- Settles O32: reset and delivery lead to IDLE, an acceptance to the start of its phase, and each micro-step of a
loop extends what the invariant says of it by one round, entry or byte. -/
theorem stepKeepsInv : Obligations.StepKeepsInv := fun _ _ => inv_step

/-- Settles O31: the reset state is idle, with `TVALID` = 0 and empty buffers. -/
theorem resetInv : Obligations.ResetInv :=
  inv_of_idle rfl (fun hv => by simp [State.reset] at hv) Buffer.empty_wf Buffer.empty_wf

/-- Settles O44: the values stand in the reset state, and a read of its table is `readTable_reset`. -/
theorem resetValues : Obligations.ResetValues := ⟨rfl, rfl, rfl, readTable_reset⟩

end Sys2Proof.Machine
end

section
/-! SUPPORT. CRC and sum depend on the bytes they read alone, and the host's moves (spec/70_reset_and_hazards.md R114,
R120) keep the invariants of R27. -/

namespace Sys2Proof.Machine

variable {s : State}

/-! ## The pure functions read the bytes below the length alone -/

theorem crc16_congr {A B : Buffer} {L : Nat} (h : ∀ k, k < L → A.byteAt k = B.byteAt k) : crc16 A L = crc16 B L := by
  induction L with
  | zero => rfl
  | succ L ih => rw [crc16_succ, crc16_succ, ih fun k hk => h k (by omega), h L (by omega)]

theorem byteSum_congr {A B : Buffer} {L : Nat} (h : ∀ k, k < L → A.byteAt k = B.byteAt k) :
    byteSum A L = byteSum B L := by
  induction L with
  | zero => rfl
  | succ L ih => rw [byteSum_succ, byteSum_succ, ih fun k hk => h k (by omega), h L (by omega)]

theorem checksum8_congr {A B : Buffer} {L : Nat} (h : ∀ k, k < L → A.byteAt k = B.byteAt k) :
    checksum8 A L = checksum8 B L := by
  rw [checksum8_eq_neg8, checksum8_eq_neg8, byteSum_congr h]

/-! ## The host's moves -/

/-- The invariants say of the host's side of the port only that the buffer bound there is in canonical form. -/
theorem Inv.withHostSide (h : Inv s) (word : Option U32) {B : Buffer} (hB : B.wf) (reset : Bool) :
    Inv { s with cmdWord := word, cmdBuf := B, resetLine := reset } :=
  { h with
    gen := fun hp => { h.gen hp with }
    foldLoop := fun hp => { h.foldLoop hp with }
    accumLoop := fun hp => { h.accumLoop hp with }
    cmdBuf := hB }

theorem inv_hostReset (h : Inv s) : Inv (hostReset s) := h.withHostSide s.cmdWord h.cmdBuf true

theorem inv_hostPresent (h : Inv s) (c : U32) : Inv (hostPresent c s) := by
  rw [hostPresent]
  split
  case isTrue => exact h
  case isFalse => exact h.withHostSide (some c) h.cmdBuf s.resetLine

theorem inv_hostBind (h : Inv s) {B : Buffer} (hB : B.wf) : Inv (hostBind B s) := by
  rw [hostBind]
  split
  case isTrue => exact h
  case isFalse => exact h.withHostSide s.cmdWord hB s.resetLine

/-- `BUF` may become any buffer of its size that holds the same bytes below `LEN`, where a command in progress reads
them. -/
theorem inv_takeBuffer (h : Inv s) {B : Buffer} (hB : B.wf) (hsize : B.size = s.buf.size)
    (hsame : s.phase = .fold ∨ s.phase = .accum → ∀ k, k < s.len.toNat → B.byteAt k = s.buf.byteAt k) :
    Inv (takeBuffer B s) := by
  have loop : ByteLoopInv s → ByteLoopInv (takeBuffer B s) := fun hl => ⟨hl.idx, hsize ▸ hl.len⟩
  cases hp : s.phase with
  | idle => exact inv_of_idle hp h.table hB h.cmdBuf
  | gen =>
    have hg := h.gen hp
    exact inv_of_gen hp { hg with op := by simpa [hsize] using hg.op }
      (h.rvalid_of_busy (by simp [hp])) hB h.cmdBuf
  | fold =>
    have hl := h.foldLoop hp
    have hacc : s.acc = crc16 B s.idx.toNat := (h.acc hp).trans
      (crc16_congr fun k hk => (hsame (.inl hp) k (hk.trans_le hl.idx)).symm)
    exact inv_of_fold hp (h.foldValid hp) (h.table (h.foldValid hp)) (h.foldOp hp) (loop hl) hacc
      (h.rvalid_of_busy (by simp [hp])) hB h.cmdBuf
  | accum =>
    have hl := h.accumLoop hp
    have hsum : s.sum.toNat = byteSum B s.idx.toNat := (h.sum hp).trans
      (byteSum_congr fun k hk => (hsame (.inr hp) k (hk.trans_le hl.idx)).symm)
    exact inv_of_accum hp h.table (h.accumOp hp) (loop hl) hsum (h.csum hp)
      (h.rvalid_of_busy (by simp [hp])) hB h.cmdBuf

/-- Where a command reads `BUF`, the host's duty leaves it the bytes at `LEN` and above (R114). -/
theorem Inv.len_le_of_hostMayWrite (h : Inv s) {i : Nat} (hw : hostMayWrite i s = true)
    (hp : s.phase = .fold ∨ s.phase = .accum) : s.len.toNat ≤ i := by
  rcases hp with hp | hp
  · simpa [hostMayWrite, State.busy, hp, h.foldOp hp] using hw
  · simpa [hostMayWrite, State.busy, hp, h.accumOp hp] using hw

theorem inv_hostWriteByte (h : Inv s) (i : Nat) (b : U8) : Inv (hostWriteByte i b s) := by
  rw [hostWriteByte]
  split
  case isTrue hw =>
    refine inv_takeBuffer h (Buffer.write_wf h.buf i b) (Buffer.write_size _ _ _) fun hp k hk => ?_
    have hlen := h.len_le_of_hostMayWrite hw hp
    exact Buffer.byteAt_write_of_ne h.buf b (by omega)
  case isFalse => exact h

/-- Settles O33: three of the moves touch the host's side of the port alone, and the fourth a byte that no command in
progress reads. -/
theorem hostMovesKeepInv : Obligations.HostMovesKeepInv := fun _ h =>
  ⟨inv_hostReset h, inv_hostPresent h, fun _ hB => inv_hostBind h hB, inv_hostWriteByte h⟩

end Sys2Proof.Machine
end

section
/-! SUPPORT. When a step changes `TABLE` and `TVALID`, which PHASE it leads to, and when it writes `RESULT` and
`RVALID` (spec/10_state.md R12, R18, R20). -/

namespace Sys2Proof.Machine

variable {s t : State}

/-! ## The table -/

/-- The engine writes `TABLE` in a commit of GEN alone (R61). -/
theorem engineStep_table (h : engineStep s = .next t) :
    t.table = s.table ∨ (s.phase = .gen ∧ s.rk.val = 8) := by
  cases engineStep_cases h with
  | commit hp hk hi ht => exact .inr ⟨hp, hk⟩
  | lastFold hp hk hi ho ht => exact .inr ⟨hp, hk⟩
  | lastIdle hp hk hi ho ht => exact .inr ⟨hp, hk⟩
  | _ => subst_vars; exact .inl rfl

/-- The engine writes `TVALID` in the commit of entry 255 alone, and sets it (R61). -/
theorem engineStep_tvalid (h : engineStep s = .next t) :
    t.tvalid = s.tvalid ∨ (t.tvalid = true ∧ s.phase = .gen ∧ s.rk.val = 8 ∧ s.ti = 255#8) := by
  cases engineStep_cases h with
  | lastFold hp hk hi ho ht => subst ht; exact .inr ⟨rfl, hp, hk, hi⟩
  | lastIdle hp hk hi ho ht => subst ht; exact .inr ⟨rfl, hp, hk, hi⟩
  | _ => subst_vars; exact .inl rfl

/-- Between two resets the table and its validity change by the engine's hand alone. -/
theorem step_table_tvalid (hr : s.resetLine = false) (h : step s = .next t) :
    (t.table = s.table ∧ t.tvalid = s.tvalid) ∨ engineStep s = .next t := by
  cases step_cases h with
  | reset hr' ht => simp [hr] at hr'
  | engine hr hp ht => exact .inr ht
  | wait hr hp hw ht => subst ht; exact .inl ⟨rfl, rfl⟩
  | accept hr hp c hw i hd ha ht =>
    obtain ⟨-, -, -, -, -, htable, htvalid⟩ := accepted_keeps i s
    subst ht
    exact .inl ⟨htable, htvalid⟩

/-- Settles O37: outside GEN's commits a step other than reset keeps `TABLE` and `TVALID`, and under the invariants a
valid table is not in GEN. -/
theorem tableLifetime : Obligations.TableLifetime := by
  intro s t hr h
  have htable : t.table = s.table ∨ (s.phase = .gen ∧ s.rk.val = 8) := by
    rcases step_table_tvalid hr h with ⟨ht, -⟩ | he
    · exact .inl ht
    · exact engineStep_table he
  have htvalid : t.tvalid = s.tvalid ∨ (t.tvalid = true ∧ s.phase = .gen ∧ s.rk.val = 8 ∧ s.ti = 255#8) := by
    rcases step_table_tvalid hr h with ⟨-, hv⟩ | he
    · exact .inl hv
    · exact engineStep_tvalid he
  refine ⟨fun hv => ?_, fun hinv hv => ?_, fun hv hv' => ?_, htable.resolve_left⟩
  · rcases htvalid with he | ⟨hv', -⟩
    · rw [he, hv]
    · exact hv'
  · exact htable.resolve_right fun ⟨hp, _⟩ => hinv.phase_ne_gen hv hp
  · rcases htvalid with he | ⟨-, hlast⟩
    · simp [he, hv] at hv'
    · exact hlast

/-! ## PHASE -/

/-- GEN is left exactly by the commit of entry 255, by `OP` (R61). -/
theorem engineStep_gen_phase (hp : s.phase = .gen) (h : engineStep s = .next t) :
    t.phase = if s.rk.val = 8 ∧ s.ti = 255#8 then (if s.op = .crc16PolyFold then .fold else .idle) else .gen := by
  cases engineStep_cases h with
  | round _ hk ht =>
    rw [if_neg (by omega), ht]; exact hp
  | commit _ hk hi ht =>
    rw [if_neg (fun hlast => by simp [hlast.2] at hi), ht]; exact hp
  | lastFold _ hk hi ho ht => rw [if_pos ⟨hk, hi⟩, if_pos ho, ht]; rfl
  | lastIdle _ hk hi ho ht => rw [if_pos ⟨hk, hi⟩, if_neg ho, ht]; rfl
  | _ => simp_all  -- the other cases start in another PHASE

/-- FOLD is left, to IDLE, exactly when every byte is consumed (R76). -/
theorem engineStep_fold_phase (hp : s.phase = .fold) (h : engineStep s = .next t) :
    t.phase = if s.idx = s.len then .idle else .fold := by
  cases engineStep_cases h with
  | foldByte _ hl hb e he ht =>
    rw [if_neg (fun heq => by simp [heq] at hl), ht]; exact hp
  | foldFinish _ hl ht => rw [if_pos hl, ht]; rfl
  | _ => simp_all  -- the other cases start in another PHASE

/-- ACCUM is left, to IDLE, exactly when every byte is consumed (R90). -/
theorem engineStep_accum_phase (hp : s.phase = .accum) (h : engineStep s = .next t) :
    t.phase = if s.idx = s.len then .idle else .accum := by
  cases engineStep_cases h with
  | accumByte _ hl hb ht =>
    rw [if_neg (fun heq => by simp [heq] at hl), ht]; exact hp
  | accumFinish _ hl ht => rw [if_pos hl, ht]; rfl
  | _ => simp_all  -- the other cases start in another PHASE

/-- crc16_table_gen enters GEN, or is complete at once where the table is valid (R60). -/
theorem accepted_tableGen_phase (hp : s.phase = .idle) :
    (accepted .crc16TableGen s).phase = if s.tvalid then .idle else .gen := by
  rw [accepted]; split
  · exact hp
  · rfl

/-- crc16_poly_fold enters FOLD, or GEN first where the table is not valid (R75). -/
theorem accepted_polyFold_phase (L : Nat) (s : State) :
    (accepted (.crc16PolyFold L) s).phase = if s.tvalid then .fold else .gen := by
  rw [accepted, enterFoldOrGen, takeBuffer_tvalid, latchCommand_tvalid]; split <;> rfl

/-- An idle block that does not refuse a command accepts it. -/
theorem accepted_of_exec {i : Instr} (hp : s.phase = .idle) (h : exec i s = .next t) : t = accepted i s := by
  rw [exec_of_idle i hp] at h
  split at h
  · exact (Host.Outcome.next.inj h).symm
  · cases h

/-- A step of an idle block with a legal word at the port is the acceptance of its command. -/
theorem accepted_of_step {c : U32} {i : Instr} (hr : s.resetLine = false) (hp : s.phase = .idle)
    (hw : s.cmdWord = some c) (hd : decode c = .cmd i) (h : step s = .next t) : t = accepted i s :=
  accepted_of_exec hp (step_of_cmd hr hp hw hd ▸ h)

/-- Settles O39: a busy block's step is the engine's, an idle block's an acceptance or a wait. -/
theorem phaseMoves : Obligations.PhaseMoves := by
  intro s t hr h
  have engine : s.phase ≠ .idle → engineStep s = .next t := fun hp => by rwa [step_of_busy hr hp] at h
  refine ⟨fun hp => ?_, fun hp => engineStep_fold_phase hp (engine (by simp [hp])),
    fun hp => engineStep_accum_phase hp (engine (by simp [hp])), fun hp hw => ?_, fun hp c i hw hd => ?_⟩
  · have hgen := engineStep_gen_phase hp (engine (by simp [hp]))
    exact ⟨fun hlast => by rw [hgen, if_pos hlast], fun hlast => by rw [hgen, if_neg hlast]⟩
  · rw [step_of_empty hr hp hw] at h
    cases h
    exact hp
  · rw [accepted_of_step hr hp hw hd h]
    cases i with
    | crc16TableGen => exact accepted_tableGen_phase hp
    | crc16PolyFold L => exact accepted_polyFold_phase L s
    | checksum8Accum L => rfl

/-! ## RESULT and RVALID -/

/-- What the last micro-step of FOLD or ACCUM does (R18, R76, R90): every byte is consumed, the block is ready and
shows `ACC` or zext_16(`CSUM`). -/
structure Delivers (s t : State) : Prop where
  consumed : s.idx = s.len
  ready : t.phase = .idle
  rvalid : t.rvalid = true
  value : (s.phase = .fold ∧ t.result = s.acc) ∨ (s.phase = .accum ∧ t.result = s.csum.setWidth 16)

/-- The engine delivers a result or leaves `RESULT` and `RVALID` as they are. -/
theorem engineStep_delivers (h : engineStep s = .next t) :
    (t.rvalid = s.rvalid ∧ t.result = s.result) ∨ Delivers s t := by
  cases engineStep_cases h with
  | foldFinish hp hl ht => subst ht; exact .inr ⟨hl, rfl, rfl, .inl ⟨hp, rfl⟩⟩
  | accumFinish hp hl ht => subst ht; exact .inr ⟨hl, rfl, rfl, .inr ⟨hp, rfl⟩⟩
  | _ => subst_vars; exact .inl ⟨rfl, rfl⟩

/-- A step other than reset leaves `RESULT` and `RVALID`, accepts a word, which clears `RVALID`, or delivers. -/
theorem step_delivers (hr : s.resetLine = false) (h : step s = .next t) :
    (t.rvalid = s.rvalid ∧ t.result = s.result) ∨
    (s.phase = .idle ∧ (∃ c, s.cmdWord = some c) ∧ t.rvalid = false ∧ t.result = s.result) ∨ Delivers s t := by
  cases step_cases h with
  | reset hr' ht => simp [hr] at hr'
  | engine hr hp ht => exact (engineStep_delivers ht).imp_right .inr
  | wait hr hp hw ht => subst ht; exact .inl ⟨rfl, rfl⟩
  | accept hr hp c hw i hd ha ht =>
    obtain ⟨hrvalid, -, -, -, hresult, -⟩ := accepted_keeps i s
    subst ht
    exact .inr (.inl ⟨hp, ⟨c, hw⟩, hrvalid, hresult⟩)

/-- The host sees `RESULT` exactly while `RVALID` = 1 (R116). -/
theorem observe_result_eq_some {v : U16} : (observe s).result = some v ↔ s.rvalid = true ∧ v = s.result := by
  cases hr : s.rvalid <;> simp [observe, hr, eq_comm]

theorem observe_result_eq_none : (observe s).result = none ↔ s.rvalid = false := by
  cases hr : s.rvalid <;> simp [observe, hr]

/-- Settles O46: each clause picks its case out of what a step can do to `RESULT` and `RVALID`. -/
theorem resultDelivery : Obligations.ResultDelivery := by
  refine ⟨fun i s t hp h => ?_, fun s t h hv hv' => ?_, fun s t hr h hv hv' => ?_, fun s t hr h hne => ?_,
    fun s v => observe_result_eq_some⟩
  · obtain ⟨hrvalid, -, -, -, hresult, -⟩ := accepted_keeps i s
    rw [accepted_of_exec hp h]
    exact ⟨hrvalid, hresult, observe_result_eq_none.mpr hrvalid⟩
  · cases hr : s.resetLine with
    | true => rw [step_of_reset hr] at h; cases h; simp at hv'
    | false =>
      rcases step_delivers hr h with ⟨hkept, -⟩ | ⟨-, -, hcleared, -⟩ | hd
      · simp [hkept, hv] at hv'
      · simp [hcleared] at hv'
      · exact ⟨hd.ready, hd.consumed, hd.value⟩
  · rcases step_delivers hr h with ⟨hkept, -⟩ | ⟨hp, hw, -⟩ | hd
    · simp [hkept, hv] at hv'
    · exact ⟨hp, hw⟩
    · simp [hd.rvalid] at hv'
  · rcases step_delivers hr h with ⟨-, hkept⟩ | ⟨-, -, -, hkept⟩ | hd
    · exact absurd hkept hne
    · exact absurd hkept hne
    · exact ⟨hd.rvalid, hd.consumed, hd.value.imp And.left And.left⟩

end Sys2Proof.Machine
end

section
/-! SUPPORT. From acceptance to the return to IDLE: the counted micro-steps lead to the state of the command level
(spec/70_reset_and_hazards.md R119), whose visible result depends on the first `LEN` bytes alone. -/

namespace Sys2Proof.Machine

variable {s : State}

/-! ## The micro-steps after each entry action -/

/-- From the entry to GEN for crc16_table_gen: the generation, then IDLE (R60). -/
theorem run_enterGen_tableGen (hr : s.resetLine = false) (ho : s.op = .crc16TableGen) :
    run genSteps (enterGen s) = .next (becomeIdle (generated (wholeTable s.table) s)) := by
  have hfinish : finishGen (genDone s) = becomeIdle (publishTable (genDone s)) :=
    finishGen_of_tableGen (by simp [genDone, ho])
  rw [run_generation hr (n := genSteps) rfl, hfinish]
  rfl

/-- From the entry action of crc16_poly_fold: the generation where it is still to be done, then the fold (R75). -/
theorem run_enterFoldOrGen (hr : s.resetLine = false) (ht : s.tvalid = true → TableFull s.table)
    (ho : s.op = .crc16PolyFold) (hl : s.len.toNat ≤ s.buf.size.toNat) :
    run ((if s.tvalid then 0 else genSteps) + (s.len.toNat + 1)) (enterFoldOrGen s) =
      .next (deliver (crc16 s.buf s.len.toNat)
        (afterFold (crc16 s.buf s.len.toNat) s.len.toNat (generateTable s))) := by
  rw [enterFoldOrGen, generateTable]
  split
  case isTrue hv =>
    rw [Nat.zero_add, run_fold_all hr (ht hv) hl]
    rfl
  case isFalse hv =>
    have hfinish : finishGen (genDone s) = enterFold (publishTable (genDone s)) := finishGen_of_fold ho
    have hfold := run_fold_all (s := publishTable (genDone s)) hr (wholeTable_full s.table) hl
    rw [run_add _ _ (run_generation hr (n := genSteps) rfl), hfinish]
    exact hfold

/-! ## Whole commands -/

theorem run_accepted_tableGen (hp : s.phase = .idle) (hr : s.resetLine = false) :
    run (microSteps .crc16TableGen s) (accepted .crc16TableGen s) = .next (commandTableGen s) := by
  rw [microSteps, accepted, commandTableGen, generateTable, latchCommand_tvalid]
  split
  case isTrue => rfl
  case isFalse =>
    have hrun := run_enterGen_tableGen (s := latchCommand .crc16TableGen 0 s) hr rfl
    rw [hrun, becomeIdle, ← hp]
    rfl

theorem run_accepted_polyFold {L : Nat} (hr : s.resetLine = false) (ht : s.tvalid = true → TableFull s.table)
    (hl : L ≤ s.cmdBuf.size.toNat) :
    run (microSteps (.crc16PolyFold L) s) (accepted (.crc16PolyFold L) s) = .next (commandPolyFold L s) := by
  have hlen : (lenOperand L).toNat = L := lenOperand_toNat_of_le hl
  have hrun := run_enterFoldOrGen (s := takeBuffer s.cmdBuf (latchCommand .crc16PolyFold L s)) hr ht rfl
    (by simpa [hlen] using hl)
  simp only [takeBuffer_tvalid, latchCommand_tvalid, takeBuffer_len, latchCommand_len, takeBuffer_buf, hlen] at hrun
  exact hrun

theorem run_accepted_checksum {L : Nat} (hr : s.resetLine = false) (hl : L ≤ s.cmdBuf.size.toNat) :
    run (microSteps (.checksum8Accum L) s) (accepted (.checksum8Accum L) s) = .next (commandChecksum L s) := by
  have hlen : (lenOperand L).toNat = L := lenOperand_toNat_of_le hl
  have hrun := run_accum_all (s := takeBuffer s.cmdBuf (latchCommand .checksum8Accum L s)) hr
    (by simpa [hlen] using hl)
  simp only [takeBuffer_len, latchCommand_len, takeBuffer_buf, hlen] at hrun
  exact hrun

/-- An accepted command, run for as many micro-steps as R119 counts, ends in the state of the command level. -/
theorem run_accepted (i : Instr) (hp : s.phase = .idle) (hr : s.resetLine = false)
    (ht : s.tvalid = true → TableFull s.table) (ha : acceptable i s = true) :
    run (microSteps i s) (accepted i s) = .next (command i s) := by
  cases i with
  | crc16TableGen => exact run_accepted_tableGen hp hr
  | crc16PolyFold L => exact run_accepted_polyFold hr ht (lengthOk_iff.mp ha)
  | checksum8Accum L => exact run_accepted_checksum hr (lengthOk_iff.mp ha)

/-! ## What the host sees at the end -/

theorem observe_deliver (v : U16) (s : State) :
    observe (deliver v s) = { ready := true, rvalid := true, result := some v } := rfl

theorem observe_command_polyFold (L : Nat) (s : State) : observe (command (.crc16PolyFold L) s) =
    { ready := true, rvalid := true, result := some (crc16 s.cmdBuf L) } := observe_deliver _ _

theorem observe_command_checksum (L : Nat) (s : State) : observe (command (.checksum8Accum L) s) =
    { ready := true, rvalid := true, result := some ((checksum8 s.cmdBuf L).setWidth 16) } := observe_deliver _ _

/-- Settles O47: each block ends in the command level's state, whose visible result is the CRC or checksum of the
bytes below `LEN`, on which the two buffers agree. -/
theorem resultsArePure : Obligations.ResultsArePure := by
  intro s₁ s₂ L hi₁ hi₂ hp₁ hp₂ hr₁ hr₂ hl₁ hl₂ hsame i hi
  have hexec : ∀ s : State, s.phase = .idle → L ≤ s.cmdBuf.size.toNat →
      acceptable i s = true ∧ exec i s = .next (accepted i s) := fun s hp hl => by
    have ha : acceptable i s = true := by rcases hi with rfl | rfl <;> exact lengthOk_iff.mpr hl
    exact ⟨ha, by rw [exec_of_idle i hp, if_pos ha]⟩
  obtain ⟨ha₁, he₁⟩ := hexec s₁ hp₁ hl₁
  obtain ⟨ha₂, he₂⟩ := hexec s₂ hp₂ hl₂
  refine ⟨_, _, _, _, he₁, he₂, run_accepted i hp₁ hr₁ hi₁.table ha₁, run_accepted i hp₂ hr₂ hi₂.table ha₂, ?_⟩
  rcases hi with rfl | rfl
  · exact ⟨rfl, by rw [observe_command_polyFold, observe_command_polyFold, crc16_congr hsame]⟩
  · exact ⟨rfl, by rw [observe_command_checksum, observe_command_checksum, checksum8_congr hsame]⟩

end Sys2Proof.Machine
end

section
/-! SUPPORT. What a command does with a buffer (spec/20_memory.md): the contract `LEN` ≤ `BUFSZ` (R37), `BUF`
read-only to the block (R29, R52), and a message that carries its own CRC (R33). -/

namespace Sys2Proof.Machine

variable {s t : State}

/-! ## The contract on the length -/

/-- An idle block refuses exactly the commands it cannot accept. -/
theorem exec_refuses_length_iff (i : Instr) (hp : s.phase = .idle) :
    exec i s = .refused .lengthExceedsBuffer ↔ acceptable i s = false := by
  rw [exec_of_idle i hp]
  cases acceptable i s <;> simp

/-- Settles O14: an idle block refuses by `acceptable`, which compares the length with `BUFSZ` and asks nothing of
crc16_table_gen. -/
theorem lengthContract : Obligations.LengthContract := by
  intro s L hp
  refine ⟨?_, ?_, ?_⟩
  · rw [exec_refuses_length_iff _ hp, acceptable_polyFold, lengthOk_eq_false]
  · rw [exec_refuses_length_iff _ hp, acceptable_checksum, lengthOk_eq_false]
  · rw [ne_eq, exec_refuses_length_iff _ hp, acceptable_tableGen]
    decide

/-! ## The buffer -/

/-- crc16_table_gen binds no buffer (R56). -/
theorem accepted_tableGen_buf (s : State) : (accepted .crc16TableGen s).buf = s.buf := by
  rw [accepted]; split <;> rfl

/-- crc16_poly_fold takes the bound buffer, whether it enters FOLD or GEN (R52, R75). -/
theorem accepted_polyFold_buf (L : Nat) (s : State) : (accepted (.crc16PolyFold L) s).buf = s.cmdBuf := by
  rw [accepted, enterFoldOrGen]; split <;> rfl

/-- checksum8_accum takes the bound buffer (R52). -/
theorem accepted_checksum_buf (L : Nat) (s : State) : (accepted (.checksum8Accum L) s).buf = s.cmdBuf := rfl

/-- Settles O38: neither a micro-step nor a wait touches the two buffers, and of the commands an idle block accepts
the two with a length take the bound one. -/
theorem bufferReadOnly : Obligations.BufferReadOnly := by
  intro s t hr h
  cases step_cases h with
  | reset hr' ht => simp [hr] at hr'
  | engine hr hp ht =>
    obtain ⟨hbuf, -, hcmdBuf, -⟩ := engineStep_keeps ht
    exact .inl ⟨hbuf, hcmdBuf⟩
  | wait hr hp hw ht => subst ht; exact .inl ⟨rfl, rfl⟩
  | accept hr hp c hw i hd ha ht =>
    obtain ⟨-, -, hcmdBuf, -⟩ := accepted_keeps i s
    subst ht
    cases i with
    | crc16TableGen => exact .inl ⟨accepted_tableGen_buf s, hcmdBuf⟩
    | crc16PolyFold L => exact .inr ⟨hp, accepted_polyFold_buf L s, hcmdBuf, c, L, hw, .inl hd⟩
    | checksum8Accum L => exact .inr ⟨hp, accepted_checksum_buf L s, hcmdBuf, c, L, hw, .inr hd⟩

/-! ## A message that carries its CRC -/

@[simp] theorem entry_zero : entry 0#8 = 0#16 := by decide

/-- A byte equal to the high octet of the accumulator selects entry 0, so its fold only shifts (R70). -/
theorem fold_highByte (acc : U16) : fold acc (acc.extractLsb' 8 8) = acc <<< 8 := by
  simp [fold, foldWith, tableIndex]

/-- Shifting by eight brings the low octet to the high one. -/
theorem highByte_shiftLeft (acc : U16) : (acc <<< 8).extractLsb' 8 8 = acc.extractLsb' 0 8 := by
  ext i hi
  have hbit : 8 + i < 16 := by omega
  simp [hbit, ← BitVec.getLsbD_eq_getElem]

/-- The two octets of the accumulator, high one first, shift it out (R33). -/
theorem fold_fold_octets (acc : U16) : fold (fold acc (acc.extractLsb' 8 8)) (acc.extractLsb' 0 8) = 0#16 := by
  calc fold (fold acc (acc.extractLsb' 8 8)) (acc.extractLsb' 0 8)
      = fold (acc <<< 8) ((acc <<< 8).extractLsb' 8 8) := by rw [fold_highByte, highByte_shiftLeft]
    _ = acc <<< 8 <<< 8 := fold_highByte _
    _ = 0#16 := by rw [← BitVec.shiftLeft_add, BitVec.shiftLeft_eq_zero le_rfl]

/-- Settles O25: the message leaves its CRC in the accumulator, and the two appended octets shift it out. -/
theorem appendedCrcIsZero : Obligations.AppendedCrcIsZero := by
  intro A B L hmsg hhigh hlow
  rw [crc16_succ, crc16_succ, crc16_congr hmsg, hhigh, hlow, fold_fold_octets]

end Sys2Proof.Machine
end

section
/-! SUPPORT. Command words (spec/30_encoding.md R44 to R51): a word is its three fields one after another, the rows of
R48 are conditions on those fields, and the decoder and the encoder are inverse to each other. -/

namespace Sys2Proof

open Sys2Proof.Machine

variable {c : U32}

/-! ## The fields of a word -/

/-- Bits 15:0 of a word, the number `lenField` reads (R45). -/
def lenBits (c : U32) : U16 := c.extractLsb' 0 16

theorem lenField_eq_toNat_lenBits (c : U32) : lenField c = (lenBits c).toNat := rfl

/-- A word is the concatenation of its fields (R44, R45). -/
theorem fields_append (c : U32) : opField c ++ (zeroField c ++ lenBits c) = c := by
  have hlow : zeroField c ++ lenBits c = c.extractLsb' 0 30 :=
    BitVec.extractLsb'_append_extractLsb'_eq_extractLsb' (start₁ := 0) (len₁ := 16) (len₂ := 14) rfl
  rw [hlow]
  exact BitVec.extractLsb'_append_extractLsb' (w := 2) (len := 30)

theorem opField_append (op : BitVec 2) (z : BitVec 14) (n : U16) : opField (op ++ (z ++ n)) = op :=
  BitVec.extractLsb'_append_eq_left

theorem zeroField_append (op : BitVec 2) (z : BitVec 14) (n : U16) : zeroField (op ++ (z ++ n)) = z := by
  rw [zeroField, BitVec.extractLsb'_append_eq_of_add_le (by decide), BitVec.extractLsb'_append_eq_left]

theorem lenBits_append (op : BitVec 2) (z : BitVec 14) (n : U16) : lenBits (op ++ (z ++ n)) = n := by
  rw [lenBits, BitVec.extractLsb'_append_eq_of_add_le (by decide), BitVec.extractLsb'_append_eq_right]

/-- A word with given fields is one word. -/
theorem eq_append_iff {op : BitVec 2} {z : BitVec 14} {n : U16} :
    c = op ++ (z ++ n) ↔ opField c = op ∧ zeroField c = z ∧ lenBits c = n := by
  constructor
  · rintro rfl
    exact ⟨opField_append op z n, zeroField_append op z n, lenBits_append op z n⟩
  · rintro ⟨rfl, rfl, rfl⟩
    exact (fields_append c).symm

/-- The mask of the two operations with a length keeps `OP` and `ZERO` and clears `LEN` (R48). -/
theorem and_rowMask (c : U32) : c &&& 0xFFFF0000#32 = opField c ++ (zeroField c ++ 0#16) := by
  have hmask : 0xFFFF0000#32 = BitVec.allOnes 2 ++ (BitVec.allOnes 14 ++ 0#16) := by decide
  calc c &&& 0xFFFF0000#32
      = (opField c ++ (zeroField c ++ lenBits c)) &&& (BitVec.allOnes 2 ++ (BitVec.allOnes 14 ++ 0#16)) := by
        rw [fields_append, hmask]
    _ = opField c ++ (zeroField c ++ 0#16) := by
        rw [BitVec.and_append, BitVec.and_append, BitVec.and_allOnes, BitVec.and_allOnes, BitVec.and_zero]

/-! ## The rows of the opcode map as conditions on the fields (R48) -/

theorem tableGen_row_iff :
    c &&& 0xFFFFFFFF#32 = 0x40000000#32 ↔ opField c = 0b01#2 ∧ zeroField c = 0#14 ∧ lenBits c = 0#16 := by
  have hmatch : 0x40000000#32 = 0b01#2 ++ (0#14 ++ 0#16) := by decide
  have hand : c &&& 0xFFFFFFFF#32 = c := BitVec.and_allOnes
  rw [hand, hmatch, eq_append_iff]

/-- The row of an operation with a length, whose match value has `op` in its field `OP` and zeros below. -/
theorem lenRow_iff (op : BitVec 2) :
    c &&& 0xFFFF0000#32 = op ++ (0#14 ++ 0#16) ↔ opField c = op ∧ zeroField c = 0#14 := by
  rw [and_rowMask, eq_append_iff, opField_append, zeroField_append, lenBits_append]
  simp

theorem polyFold_row_iff : c &&& 0xFFFF0000#32 = 0x80000000#32 ↔ opField c = 0b10#2 ∧ zeroField c = 0#14 :=
  lenRow_iff 0b10#2

theorem checksum_row_iff : c &&& 0xFFFF0000#32 = 0xC0000000#32 ↔ opField c = 0b11#2 ∧ zeroField c = 0#14 :=
  lenRow_iff 0b11#2

/-- The match values differ in `OP`, so no word matches two rows. -/
theorem rows_disjoint (c : U32) :
    ¬(c &&& 0xFFFFFFFF#32 = 0x40000000#32 ∧ c &&& 0xFFFF0000#32 = 0x80000000#32) ∧
    ¬(c &&& 0xFFFFFFFF#32 = 0x40000000#32 ∧ c &&& 0xFFFF0000#32 = 0xC0000000#32) ∧
    ¬(c &&& 0xFFFF0000#32 = 0x80000000#32 ∧ c &&& 0xFFFF0000#32 = 0xC0000000#32) := by
  rw [tableGen_row_iff, polyFold_row_iff, checksum_row_iff]
  refine ⟨?_, ?_, ?_⟩ <;>
  · rintro ⟨⟨hop, -⟩, hop', -⟩
    simp [hop] at hop'

/-! ## The decoder, one equivalence for each answer (R48, R49) -/

theorem decode_eq_tableGen_iff : decode c = .cmd .crc16TableGen ↔ c &&& 0xFFFFFFFF#32 = 0x40000000#32 := by
  unfold decode
  split_ifs with h₁ <;> simp [h₁]

theorem decode_eq_polyFold_iff {len : Nat} :
    decode c = .cmd (.crc16PolyFold len) ↔ c &&& 0xFFFF0000#32 = 0x80000000#32 ∧ len = lenField c := by
  obtain ⟨hd, -, -⟩ := rows_disjoint c
  unfold decode
  split_ifs with h₁ h₂ h₃
  · simpa using fun h => absurd ⟨h₁, h⟩ hd
  · simp [h₂, eq_comm]
  · simp [h₂]
  · simp [h₂]

theorem decode_eq_checksum_iff {len : Nat} :
    decode c = .cmd (.checksum8Accum len) ↔ c &&& 0xFFFF0000#32 = 0xC0000000#32 ∧ len = lenField c := by
  obtain ⟨-, hd, hd'⟩ := rows_disjoint c
  unfold decode
  split_ifs with h₁ h₂ h₃
  · simpa using fun h => absurd ⟨h₁, h⟩ hd
  · simpa using fun h => absurd ⟨h₂, h⟩ hd'
  · simp [h₃, eq_comm]
  · simp [h₃]

/-- A word is reserved exactly where it matches no row (R49). -/
theorem decode_reserved_iff :
    (∃ why, decode c = .reserved why) ↔ c &&& 0xFFFFFFFF#32 ≠ 0x40000000#32 ∧
      c &&& 0xFFFF0000#32 ≠ 0x80000000#32 ∧ c &&& 0xFFFF0000#32 ≠ 0xC0000000#32 := by
  unfold decode
  split_ifs with h₁ h₂ h₃ <;> simp [*]

/-! ## Decoder and encoder are inverse to each other -/

theorem decode_encode {i : Instr} (hi : i.WellFormed) : decode (encode i) = .cmd i := by
  cases i with
  | crc16TableGen =>
    obtain ⟨hrow, -⟩ := Laws.RowMatch.crc16TableGen hi
    exact decode_eq_tableGen_iff.mpr hrow
  | crc16PolyFold len =>
    obtain ⟨hrow, hlen⟩ := Laws.RowMatch.crc16PolyFold len hi
    exact decode_eq_polyFold_iff.mpr ⟨hrow, hlen.symm⟩
  | checksum8Accum len =>
    obtain ⟨hrow, hlen⟩ := Laws.RowMatch.checksum8Accum len hi
    exact decode_eq_checksum_iff.mpr ⟨hrow, hlen.symm⟩

/-- A word that decodes to a command has the command's fields, `LEN` within its 16 bits. -/
theorem fields_of_decode {i : Instr} (h : decode c = .cmd i) :
    opField c = i.opBits ∧ zeroField c = 0#14 ∧ lenField c = i.len := by
  cases i with
  | crc16TableGen =>
    obtain ⟨hop, hzero, hlen⟩ := tableGen_row_iff.mp (decode_eq_tableGen_iff.mp h)
    exact ⟨hop, hzero, by simp [lenField_eq_toNat_lenBits, hlen, Instr.len]⟩
  | crc16PolyFold len =>
    obtain ⟨hrow, rfl⟩ := decode_eq_polyFold_iff.mp h
    obtain ⟨hop, hzero⟩ := polyFold_row_iff.mp hrow
    exact ⟨hop, hzero, rfl⟩
  | checksum8Accum len =>
    obtain ⟨hrow, rfl⟩ := decode_eq_checksum_iff.mp h
    obtain ⟨hop, hzero⟩ := checksum_row_iff.mp hrow
    exact ⟨hop, hzero, rfl⟩

theorem encode_of_decode {i : Instr} (h : decode c = .cmd i) : encode i = c := by
  obtain ⟨hop, hzero, hlen⟩ := fields_of_decode h
  have hbits : lenBits c = BitVec.ofNat 16 i.len := by simp [← hlen, lenField_eq_toNat_lenBits]
  exact (eq_append_iff.mpr ⟨hop, hzero, hbits⟩).symm

/-- A command is well-formed exactly where its length fits, crc16_table_gen having length 0 (R47). -/
theorem wellFormed_iff_len_lt (i : Instr) : i.WellFormed ↔ i.len < 65536 := by
  cases i with
  | crc16TableGen => simp [Instr.WellFormed, Instr.wellFormed, Instr.len]
  | crc16PolyFold len => exact lenFits_iff
  | checksum8Accum len => exact lenFits_iff

theorem wellFormed_of_decode {i : Instr} (h : decode c = .cmd i) : i.WellFormed := by
  obtain ⟨-, -, hlen⟩ := fields_of_decode h
  exact (wellFormed_iff_len_lt i).mpr (hlen ▸ lenField_lt c)

/-- Settles O2: the word of each operation matches that operation's row, with the length in the field `LEN`. -/
theorem decodeEncode : Obligations.DecodeEncode := fun _ => decode_encode

/-- Settles O3: a row fixes `OP` and `ZERO`, and the command's length is the third field of the word. -/
theorem encodeDecode : Obligations.EncodeDecode := fun _ _ h => ⟨wellFormed_of_decode h, encode_of_decode h⟩

/-! ## The number of legal words -/

/-- The well-formed commands, one for each choice: no operand, or one of two operations and a length. -/
def commandOfChoice : Option (Fin 65536 ⊕ Fin 65536) → Instr
  | none => .crc16TableGen
  | some (.inl len) => .crc16PolyFold len.val
  | some (.inr len) => .checksum8Accum len.val

theorem commandOfChoice_wellFormed (x : Option (Fin 65536 ⊕ Fin 65536)) : (commandOfChoice x).WellFormed := by
  rw [wellFormed_iff_len_lt]
  match x with
  | none => decide
  | some (.inl len) => exact len.isLt
  | some (.inr len) => exact len.isLt

theorem exists_commandOfChoice {i : Instr} (hi : i.WellFormed) : ∃ x, commandOfChoice x = i := by
  rw [wellFormed_iff_len_lt] at hi
  match i with
  | .crc16TableGen => exact ⟨none, rfl⟩
  | .crc16PolyFold len => exact ⟨some (.inl ⟨len, hi⟩), rfl⟩
  | .checksum8Accum len => exact ⟨some (.inr ⟨len, hi⟩), rfl⟩

theorem commandOfChoice_injective : Function.Injective commandOfChoice := by
  rintro (_ | x | x) (_ | y | y) h <;> simp_all [commandOfChoice, Fin.ext_iff]

theorem legalWords_eq_range :
    {c : U32 | ∃ i, decode c = .cmd i} = Set.range fun x => encode (commandOfChoice x) := by
  ext c
  constructor
  · rintro ⟨i, hi⟩
    obtain ⟨x, hx⟩ := exists_commandOfChoice (wellFormed_of_decode hi)
    exact ⟨x, (congrArg encode hx).trans (encode_of_decode hi)⟩
  · rintro ⟨x, rfl⟩
    exact ⟨commandOfChoice x, decode_encode (commandOfChoice_wellFormed x)⟩

theorem encode_commandOfChoice_injective : Function.Injective fun x => encode (commandOfChoice x) := by
  intro x y h
  have hd : decode (encode (commandOfChoice x)) = decode (encode (commandOfChoice y)) := congrArg decode h
  rw [decode_encode (commandOfChoice_wellFormed x), decode_encode (commandOfChoice_wellFormed y)] at hd
  exact commandOfChoice_injective (Decoded.cmd.inj hd)

theorem legalWords_ncard : {c : U32 | ∃ i, decode c = .cmd i}.ncard = 131073 := by
  rw [legalWords_eq_range, Set.ncard_range_of_injective encode_commandOfChoice_injective, Nat.card_eq_fintype_card,
    Fintype.card_option, Fintype.card_sum, Fintype.card_fin]

/-- Settles O4: each answer of the decoder is one row, the rows differ in `OP`, and the legal words are the words of
the 1 + 65536 + 65536 well-formed commands. -/
theorem opcodeRows : Obligations.OpcodeRows :=
  ⟨fun _ => decode_eq_tableGen_iff, fun _ _ => decode_eq_polyFold_iff, fun _ _ => decode_eq_checksum_iff,
    rows_disjoint, legalWords_ncard⟩

/-! ## Reserved words -/

/-- The words without a row, by their fields (R49). -/
theorem decode_reserved_iff_fields :
    (∃ why, decode c = .reserved why) ↔
      opField c = 0b00#2 ∨ zeroField c ≠ 0#14 ∨ (opField c = 0b01#2 ∧ lenBits c ≠ 0#16) := by
  have hop : ∀ op : BitVec 2, op = 0b00#2 ∨ op = 0b01#2 ∨ op = 0b10#2 ∨ op = 0b11#2 := by decide
  rw [decode_reserved_iff, Ne, Ne, Ne, tableGen_row_iff, polyFold_row_iff, checksum_row_iff]
  rcases hop (opField c) with h | h | h | h <;> simp [h, or_iff_not_imp_left]

/-- Settles O5: the decoder's last branch is the complement of the three rows, which are conditions on the fields, and
an idle block's step refuses there. -/
theorem reservedWords : Obligations.ReservedWords :=
  ⟨fun _ => decode_reserved_iff, fun _ => decode_reserved_iff_fields,
    fun _ _ _ hr hp hw hd => step_of_reserved hr hp hw hd⟩

/-! ## Words and lines written out -/

/-- Settles O1: fourteen words, each decoded by evaluation. -/
theorem specWordsDecode : Obligations.SpecWordsDecode := by
  unfold Obligations.SpecWordsDecode
  decide

/-- Settles O6: eight lines, each assembled by evaluation. -/
theorem assemblyLines : Obligations.AssemblyLines := by
  unfold Obligations.AssemblyLines
  decide

end Sys2Proof
end

section
/-! SUPPORT. What the host sees of a ready block: a placed or presented word runs its command (spec/30_encoding.md
R51), the wait for ready ends in the state of the command level, and calls (R54) and script lines (R55) follow. -/

namespace Sys2Proof.Machine

variable {s t : State}

/-! ## A word at the port -/

/-- Settles O7: in IDLE the decoded command runs, and in another PHASE both sides are the engine's micro-step. -/
theorem stepRunsDecoded : Obligations.StepRunsDecoded := by
  intro s c i hr hw hd
  by_cases hp : s.phase = .idle
  · exact step_of_cmd hr hp hw hd
  · rw [step_of_busy hr hp, exec_of_busy i hp]

/-- The length within the bound buffer is all that acceptance asks (R37). -/
theorem acceptable_of_len_le {i : Instr} (h : i.len ≤ s.cmdBuf.size.toNat) : acceptable i s = true := by
  cases i with
  | crc16TableGen => exact acceptable_tableGen s
  | crc16PolyFold len => exact lengthOk_iff.mpr h
  | checksum8Accum len => exact lengthOk_iff.mpr h

/-- The acceptance half of `exec_of_idle`. -/
theorem exec_of_acceptable {i : Instr} (hp : s.phase = .idle) (ha : acceptable i s = true) :
    exec i s = .next (accepted i s) := by
  rw [exec_of_idle i hp, if_pos ha]

/-- The table's 32 bits of a word are the word. -/
theorem tableWord?_toNat (c : U32) : tableWord? 32 c.toNat = some c := by
  have hmod : c.toNat % 2 ^ 32 = c.toNat := Nat.mod_eq_of_lt c.isLt
  rw [tableWord?, hmod, if_pos c.isLt, BitVec.ofNat_toNat, BitVec.setWidth_eq]

theorem decodeTableWord_toNat (c : U32) : decodeTableWord 32 c.toNat = (decode c).instr? := by
  rw [decodeTableWord, tableWord?_toNat]

theorem withFetchWord_toNat (s : State) (c : U32) : s.withFetchWord 32 c.toNat = placeCommand s c := by
  rw [State.withFetchWord, placeTableWord, tableWord?_toNat]

/-- The buffer that a placement binds is long enough for the placed word's command. -/
theorem acceptable_placeCommand {c : U32} {i : Instr} (hd : decode c = .cmd i) (s : State) :
    acceptable i (placeCommand s c) = true := by
  obtain ⟨-, -, hlen⟩ := fields_of_decode hd
  refine acceptable_of_len_le ?_
  rw [placeCommand_cmdBuf, ← hlen]
  exact bufferOfAtLeast_size s.cmdBuf (lenField_lt c)

/-- Settles O8: the placed state is idle, with the word at the port and a buffer that its length does not exceed. -/
theorem fetchWordRuns : Obligations.FetchWordRuns := by
  intro s c i hd
  rw [withFetchWord_toNat, decodeTableWord_toNat, hd]
  exact ⟨rfl, step_of_cmd rfl rfl rfl hd, _, exec_of_acceptable rfl (acceptable_placeCommand hd s)⟩

/-! ## A ready block -/

theorem waiting_eq_false : waiting s = false ↔ s.phase = .idle ∧ s.cmdWord = none ∧ s.resetLine = false := by
  simp [waiting, and_assoc]

theorem hostBind_of_ready (B : Buffer) (h : waiting s = false) : hostBind B s = { s with cmdBuf := B } := by
  obtain ⟨-, hw, -⟩ := waiting_eq_false.mp h
  simp [hostBind, hw]

theorem hostPresent_of_ready (c : U32) (h : waiting s = false) :
    hostPresent c s = withPort (some c) s.cmdBuf s := by
  obtain ⟨-, hw, -⟩ := waiting_eq_false.mp h
  simp [hostPresent, hw, withPort]

theorem waiting_hostBind (B : Buffer) (h : waiting s = false) : waiting (hostBind B s) = false := by
  rw [hostBind_of_ready B h]
  exact h

theorem step_of_ready (h : waiting s = false) : step s = .next s := by
  obtain ⟨hp, hw, hr⟩ := waiting_eq_false.mp h
  exact step_of_empty hr hp hw

/-! ## The wait for ready -/

/-- A run that ends in a ready state is where the wait ends: a ready state on the way stays as it is. -/
theorem runToReady_of_run {n m : Nat} (hrun : run n s = .next t) (ht : waiting t = false) (hnm : n ≤ m) :
    runToReady m s = .next t := by
  induction n generalizing s m with
  | zero =>
    cases hrun
    exact runToReady_of_not_waiting m ht
  | succ n ih =>
    by_cases hs : waiting s = true
    · obtain ⟨m, rfl⟩ := Nat.exists_eq_succ_of_ne_zero (n := m) (by omega)
      cases hu : step s with
      | next u => rw [runToReady_succ m hs hu, ih (by rwa [run_succ_of_next n hu] at hrun) (by omega)]
      | fault r => simp [run, hu] at hrun
      | refused r => simp [run, hu] at hrun
    · have hs : waiting s = false := by simpa using hs
      rw [run_succ_of_next n (step_of_ready hs)] at hrun
      exact ih hrun (by omega)

theorem runToReady_of_refused {r : Refusal} (n : Nat) (hw : waiting s = true) (h : step s = .refused r) :
    runToReady (n + 1) s = .refused r := by
  simp only [runToReady, hw, if_true, h]

/-- No command takes more micro-steps than a generation and its bytes (R119). -/
theorem microSteps_le (i : Instr) (s : State) : microSteps i s ≤ genSteps + (i.len + 1) := by
  have hgen : (if s.tvalid then 0 else genSteps) ≤ genSteps := by split <;> omega
  cases i with
  | crc16TableGen => exact hgen.trans (Nat.le_add_right _ _)
  | crc16PolyFold len => exact Nat.add_le_add_right hgen _
  | checksum8Accum len => exact Nat.le_add_left _ _

theorem microSteps_lt_waitBound {i : Instr} (hi : i.WellFormed) (s : State) : microSteps i s < waitBound := by
  have hlen := (wellFormed_iff_len_lt i).mp hi
  have hsteps := microSteps_le i s
  unfold waitBound
  omega

/-! ## The acceptance of a presented command -/

/-- Acceptance takes the word: which word was at the port leaves no trace. -/
theorem accepted_withWord (i : Instr) (word : Option U32) (s : State) :
    accepted i (withPort word s.cmdBuf s) = accepted i s := by
  cases i <;> rfl

theorem acceptable_withWord (i : Instr) (word : Option U32) (s : State) :
    acceptable i (withPort word s.cmdBuf s) = acceptable i s := by
  cases i <;> rfl

/-- The first step after the host presents a command to a ready block. -/
theorem step_hostPresent {i : Instr} (hi : i.WellFormed) (h : waiting s = false) :
    step (hostPresent (encode i) s) =
      if acceptable i s then .next (accepted i s) else .refused .lengthExceedsBuffer := by
  obtain ⟨hp, -, hr⟩ := waiting_eq_false.mp h
  have hstep : step (withPort (some (encode i)) s.cmdBuf s) = exec i (withPort (some (encode i)) s.cmdBuf s) :=
    step_of_cmd hr hp rfl (decode_encode hi)
  rw [hostPresent_of_ready _ h, hstep, exec_of_idle i (by exact hp), accepted_withWord, acceptable_withWord]

/-! ## The command level leaves the block ready -/

theorem generateTable_phase (s : State) : (generateTable s).phase = s.phase := by
  rw [generateTable]
  split <;> rfl

theorem generateTable_cmdWord (s : State) : (generateTable s).cmdWord = s.cmdWord := by
  rw [generateTable]
  split <;> rfl

theorem generateTable_resetLine (s : State) : (generateTable s).resetLine = s.resetLine := by
  rw [generateTable]
  split <;> rfl

theorem command_phase (i : Instr) (hp : s.phase = .idle) : (command i s).phase = .idle := by
  cases i with
  | crc16TableGen => exact (generateTable_phase _).trans hp
  | crc16PolyFold len => rfl
  | checksum8Accum len => rfl

theorem command_cmdWord (i : Instr) (s : State) : (command i s).cmdWord = none := by
  cases i with
  | crc16TableGen => exact generateTable_cmdWord _
  | crc16PolyFold len => exact generateTable_cmdWord _
  | checksum8Accum len => rfl

theorem command_resetLine (i : Instr) (s : State) : (command i s).resetLine = s.resetLine := by
  cases i with
  | crc16TableGen => exact generateTable_resetLine _
  | crc16PolyFold len => exact generateTable_resetLine _
  | checksum8Accum len => rfl

theorem waiting_command (i : Instr) (h : waiting s = false) : waiting (command i s) = false := by
  obtain ⟨hp, -, hr⟩ := waiting_eq_false.mp h
  exact waiting_eq_false.mpr ⟨command_phase i hp, command_cmdWord i s, (command_resetLine i s).trans hr⟩

/-! ## An issued command -/

/-- A ready block runs an issued command to the state of the command level (R54, R55, R119). -/
theorem issue_of_acceptable {i : Instr} (hi : i.WellFormed) (hs : Inv s) (h : waiting s = false)
    (ha : acceptable i s = true) : issue i s = .next (command i s) := by
  obtain ⟨hp, -, hr⟩ := waiting_eq_false.mp h
  have hstep : step (hostPresent (encode i) s) = .next (accepted i s) := by rw [step_hostPresent hi h, if_pos ha]
  have hrun : run (microSteps i s + 1) (hostPresent (encode i) s) = .next (command i s) := by
    rw [run_succ_of_next _ hstep, run_accepted i hp hr hs.table ha]
  rw [issue_of_free hi (portTaken_of_not_waiting h)]
  exact runToReady_of_run hrun (waiting_command i h) (microSteps_lt_waitBound hi s)

/-- A ready block refuses an issued command whose length exceeds the bound buffer (R37). -/
theorem issue_of_not_acceptable {i : Instr} (hi : i.WellFormed) (h : waiting s = false)
    (ha : acceptable i s = false) : issue i s = .refused .lengthExceedsBuffer := by
  have hstep : step (hostPresent (encode i) s) = .refused .lengthExceedsBuffer := by
    rw [step_hostPresent hi h, ha]
    rfl
  have hwait : waiting (hostPresent (encode i) s) = true := by
    rw [hostPresent_of_ready _ h]
    simp [waiting]
  rw [issue_of_free hi (portTaken_of_not_waiting h)]
  exact runToReady_of_refused _ hwait hstep

/-! ## The calls -/

/-- On a ready block, binding a buffer and issuing a command runs the command on that buffer. -/
theorem bind_issue {i : Instr} {B : Buffer} (hs : Inv s) (h : waiting s = false) (hB : B.wf)
    (hl : i.len ≤ B.size.toNat) :
    andThen (bindLine B s) (issue i) = .next (command i { s with cmdBuf := B }) := by
  have hi : i.WellFormed := (wellFormed_iff_len_lt i).mpr (hl.trans_lt B.size.isLt)
  rw [bindLine_of_free B (portTaken_of_not_waiting h), andThen_next, ← hostBind_of_ready B h]
  refine issue_of_acceptable hi (inv_hostBind hs hB) (waiting_hostBind B h) (acceptable_of_len_le ?_)
  rwa [hostBind_of_ready B h]

/-- Settles O48: each call runs its command on the bound buffer, and the command level delivers the answer. -/
theorem callsAnswer : Obligations.CallsAnswer := by
  intro s B L hs h hB hl
  constructor
  · rw [callCrc16, bind_issue (i := .crc16PolyFold L) hs h hB hl, resultOf, observe_command_polyFold]
  · rw [callChecksum8, bind_issue (i := .checksum8Accum L) hs h hB hl, resultOf, observe_command_checksum]
    simp

/-! ## The lines of a script -/

/-- Binding the bytes `all` at a ready block binds a buffer of as many bytes, which begins with any list that `all`
begins with. -/
theorem bindLine_ofBytes {bytes all : List U8} (h : waiting s = false) (hpre : bytes <+: all)
    (hall : all.length ≤ 65535) :
    ∃ t, bindLine (Buffer.ofBytes all) s = .next t ∧ t.cmdBuf.size.toNat = all.length ∧
      (∀ (k : Nat) (hk : k < bytes.length), t.cmdBuf.byteAt k = bytes[k]) ∧ t = { s with cmdBuf := t.cmdBuf } := by
  refine ⟨{ s with cmdBuf := Buffer.ofBytes all }, ?_, Buffer.ofBytes_size all hall, fun k hk => ?_, rfl⟩
  · rw [bindLine_of_free _ (portTaken_of_not_waiting h), hostBind_of_ready _ h]
  · have hk' : k < all.length := hk.trans_le hpre.length_le
    calc (Buffer.ofBytes all).byteAt k
        = all[k] := by rw [Buffer.byteAt_ofBytes all hall, List.getD_eq_getElem _ _ hk']
      _ = bytes[k] := (hpre.getElem hk).symm

theorem sizedBytes_length {bytes : List U8} {n : Nat} (h : bytes.length ≤ n) : (sizedBytes bytes n).length = n := by
  simp [sizedBytes, h]

theorem isPrefix_sizedBytes {bytes : List U8} {n : Nat} (h : bytes.length ≤ n) : bytes <+: sizedBytes bytes n := by
  rw [List.prefix_iff_eq_take, sizedBytes, List.take_take, Nat.min_eq_left h, List.take_left']
  rfl

/-- Settles O51: a reset line is one step, a bind line binds its bytes, a command line is `issue`, and an `expect`
line is a decision about the state it stands at. -/
theorem scriptLines : Obligations.ScriptLines := by
  intro s hs h
  refine ⟨⟨takeReset (hostReset s), step_of_reset rfl, rfl, rfl, rfl, rfl⟩, ?bind, ?bindSize, ?command,
    fun v => ⟨rfl, ?expectResult⟩, fun e => ⟨rfl, rfl⟩, fun _ _ => decide_eq_true_iff, fun _ => decide_eq_true_iff,
    fun _ => decide_eq_true_iff, fun _ => decide_eq_true_iff, fun _ => decide_eq_true_iff,
    fun _ => decide_eq_true_iff, fun _ => decide_eq_true_iff, fun _ => decide_eq_true_iff,
    fun _ => decide_eq_true_iff, fun _ => decide_eq_true_iff, fun _ => decide_eq_true_iff,
    fun _ => decide_eq_true_iff, fun _ => decide_eq_true_iff⟩
  case bind => exact fun bytes hlen => bindLine_ofBytes h List.prefix_rfl hlen
  case bindSize =>
    intro bytes n hle hn
    have hlen := sizedBytes_length hle
    have hbind := bindLine_ofBytes h (isPrefix_sizedBytes hle) (hlen.trans_le hn)
    rwa [hlen] at hbind
  case command =>
    exact fun i hi => ⟨fun ha => ⟨issue_of_acceptable hi hs h ha, waiting_command i h⟩, issue_of_not_acceptable hi h⟩
  case expectResult => simp [lineMeets, expectResult]

end Sys2Proof.Machine
end

section
/-! SUPPORT. The round on the numbers and its linearity (spec/40_crc16_table_gen.md R57), and what follows for the
table (R64): it is linear over XOR, fixed by eight entries, and without repetition. -/

namespace Sys2Proof.Machine

/-! ## One round -/

/-- Bit 15 before the shift selects the polynomial (R57). -/
theorem crcRound_eq (w : U16) : crcRound w = (w <<< 1) ^^^ (if w[15] then Config.poly else 0#16) := by
  rw [crcRound]
  split <;> simp

theorem crcRound_toNat (w : U16) : (crcRound w).toNat =
    if w.toNat / 2 ^ 15 = 1 then (w.toNat * 2 % 2 ^ 16) ^^^ 0x1021 else w.toNat * 2 % 2 ^ 16 := by
  have hbit : w[15] = true ↔ w.toNat / 2 ^ 15 = 1 := by
    have := w.isLt
    rw [← BitVec.getLsbD_eq_getElem, BitVec.getLsbD, Nat.testBit_eq_decide_div_mod_eq, decide_eq_true_iff]
    omega
  have hshift : (w <<< 1).toNat = w.toNat * 2 % 2 ^ 16 := by
    rw [BitVec.toNat_shiftLeft, Nat.shiftLeft_eq, Nat.pow_one]
  simp only [crcRound, hbit]
  split
  · rw [BitVec.toNat_xor, hshift]
    rfl
  · exact hshift

/-- The shift is linear, and so is the choice of the polynomial by bit 15. -/
theorem crcRound_xor (a b : U16) : crcRound (a ^^^ b) = crcRound a ^^^ crcRound b := by
  have hpoly : (if (a ^^^ b)[15] then Config.poly else 0#16) =
      (if a[15] then Config.poly else 0#16) ^^^ (if b[15] then Config.poly else 0#16) := by
    rw [BitVec.getElem_xor]
    cases a[15] <;> cases b[15] <;> simp
  rw [crcRound_eq, crcRound_eq, crcRound_eq, hpoly, BitVec.shiftLeft_xor_distrib]
  ac_rfl

theorem crcRound_zero : crcRound 0#16 = 0#16 := by decide

/-- Settles O19: the round on the numbers, its linearity and its zero. -/
theorem roundRule : Obligations.RoundRule := ⟨crcRound_toNat, crcRound_xor, crcRound_zero⟩

/-- The polynomial sets bit 0, which the shift leaves 0: a round gives 0 only without it, and then only from 0. -/
theorem eq_zero_of_crcRound_eq_zero {w : U16} (h : crcRound w = 0#16) : w = 0#16 := by
  have hround := crcRound_toNat w
  rw [h, BitVec.toNat_zero] at hround
  refine BitVec.eq_of_toNat_eq ?_
  split at hround
  · have hodd : ((w.toNat * 2 % 2 ^ 16) ^^^ 0x1021) % 2 = 1 := by rw [Nat.xor_mod_two_eq]; omega
    omega
  · rw [BitVec.toNat_zero]; omega

/-! ## The rounds of one entry -/

theorem crcRounds_xor (k : Nat) (a b : U16) : crcRounds k (a ^^^ b) = crcRounds k a ^^^ crcRounds k b := by
  induction k with
  | zero => rfl
  | succ k ih => rw [crcRounds_succ, crcRounds_succ, crcRounds_succ, ih, crcRound_xor]

theorem eq_zero_of_crcRounds_eq_zero {k : Nat} {w : U16} (h : crcRounds k w = 0#16) : w = 0#16 := by
  induction k with
  | zero => exact h
  | succ k ih => exact ih (eq_zero_of_crcRound_eq_zero h)

theorem highOctet_xor (a b : U8) : highOctet (a ^^^ b) = highOctet a ^^^ highOctet b := by
  rw [highOctet, BitVec.setWidth_xor, BitVec.shiftLeft_xor_distrib]
  rfl

theorem eq_zero_of_highOctet_eq_zero {i : U8} (h : highOctet i = 0#16) : i = 0#8 := by
  have hi := i.isLt
  have hn := congrArg BitVec.toNat h
  simp [highOctet, Nat.shiftLeft_eq] at hn
  apply BitVec.eq_of_toNat_eq
  simp
  omega

/-! ## The table -/

/-- The table is linear over XOR (R64). -/
theorem entry_xor (a b : U8) : entry (a ^^^ b) = entry a ^^^ entry b := by
  rw [entry, highOctet_xor, crcRounds_xor]
  rfl

theorem entry_injective : Function.Injective entry := by
  intro a b h
  have hzero : entry (a ^^^ b) = 0#16 := by rw [entry_xor, h, BitVec.xor_self]
  exact BitVec.xor_eq_zero_iff.mp (eq_zero_of_highOctet_eq_zero (eq_zero_of_crcRounds_eq_zero hzero))

/-- The XOR of the powers of two at the set bits of `x` below `n` is `x` cut to its bits below `n`. -/
theorem getLsbD_foldl_bits {w : Nat} (x : BitVec w) (n j : Nat) :
    ((List.range n).foldl (fun y k => if x.getLsbD k then y ^^^ (1#w <<< k) else y) 0#w).getLsbD j =
      (decide (j < n) && x.getLsbD j) := by
  induction n with
  | zero => simp
  | succ n ih =>
    rw [List.range_succ, List.foldl_append, List.foldl_cons, List.foldl_nil]
    have hlt : n ≠ j → (j < n + 1 ↔ j < n) := by omega
    split
    case isTrue hx =>
      rw [BitVec.getLsbD_xor, ih, ← BitVec.twoPow_eq, BitVec.getLsbD_twoPow,
        decide_eq_true (BitVec.lt_of_getLsbD hx), Bool.true_and]
      by_cases hj : n = j
      · subst hj
        rw [hx]
        simp
      · simp [hj, hlt hj]
    case isFalse hx =>
      rw [ih]
      by_cases hj : n = j
      · subst hj
        simp [hx]
      · simp [hlt hj]

/-- A word is the XOR of the powers of two at its set bits. -/
theorem foldl_bits {w : Nat} (x : BitVec w) :
    (List.range w).foldl (fun y k => if x.getLsbD k then y ^^^ (1#w <<< k) else y) 0#w = x := by
  refine BitVec.eq_of_getLsbD_eq fun j hj => ?_
  rw [getLsbD_foldl_bits, decide_eq_true hj, Bool.true_and]

/-- The entries at the powers of two fix every entry: linearity along the bits of the index (R64). -/
theorem entry_eq_foldl (i : U8) : entry i =
    (List.range 8).foldl (fun x k => if i.getLsbD k then x ^^^ entry (1#8 <<< k) else x) 0x0000#16 := by
  have hfold := List.foldl_hom entry (l := List.range 8) (init := 0#8)
    (g₁ := fun x k => if i.getLsbD k then x ^^^ (1#8 <<< k) else x)
    (g₂ := fun x k => if i.getLsbD k then x ^^^ entry (1#8 <<< k) else x)
    fun x k => by rw [apply_ite entry, entry_xor]
  rw [foldl_bits, entry_zero] at hfold
  exact hfold.symm

theorem tgenTable_toList : tgenTable.toList = (List.ofFn (BitVec.ofFin (w := 8))).map entry := by
  rw [tgenTable, Vector.toList_ofFn, List.map_ofFn]
  rfl

/-- The XOR of all entries is the entry at the XOR of all indices, which is 0 (R64). -/
theorem tgenTable_xor : tgenTable.toList.foldl (· ^^^ ·) 0#16 = 0#16 := by
  have hindices : (List.ofFn (BitVec.ofFin (w := 8))).foldl (· ^^^ ·) 0#8 = 0#8 := by decide +kernel
  rw [tgenTable_toList, List.foldl_map, ← entry_zero,
    List.foldl_hom entry (g₁ := (· ^^^ ·)) fun x y => (entry_xor x y).symm, hindices]

/-- Settles O20: linearity gives the general properties, and the entries at the powers of two are evaluated. -/
theorem tableProperties : Obligations.TableProperties :=
  ⟨entry_zero, by decide, by decide, entry_xor, by decide, by decide, by decide, by decide, by decide, by decide,
    by decide, entry_eq_foldl, fun _ _ h => entry_injective h, tgenTable_xor⟩

end Sys2Proof.Machine
end

section
/-! SUPPORT. Table generation whole: the command crc16_table_gen (spec/40_crc16_table_gen.md R60), the micro-steps of
GEN (R61), what a micro-step of each PHASE leaves (R61, R76, R90), and every command run to its end with any word and
buffer at the port meanwhile (spec/70_reset_and_hazards.md R113, R119). -/

namespace Sys2Proof.Machine

variable {s t : State}

/-! ## The command -/

theorem accepted_tableGen_of_valid (hv : s.tvalid = true) :
    accepted .crc16TableGen s = latchCommand .crc16TableGen 0 s := if_pos hv

theorem accepted_tableGen_of_not_valid (hv : s.tvalid = false) :
    accepted .crc16TableGen s = enterGen (latchCommand .crc16TableGen 0 s) := if_neg (by simp [hv])

/-- Settles O10: with a valid table acceptance is the whole command; else the 2304 micro-steps of the generation lead
from the entry to GEN back to IDLE. -/
theorem tableGenCommand : Obligations.TableGenCommand := by
  intro s hp hr ht
  have hexec := exec_of_acceptable hp (acceptable_tableGen s)
  rcases s.tvalid.eq_false_or_eq_true with hv | hv
  · rw [accepted_tableGen_of_valid hv] at hexec
    exact ⟨_, _, hexec, fun _ => ⟨rfl, rfl⟩, fun hv' => by simp [hv] at hv', rfl, rfl, rfl, ht hv, hv, hp, rfl⟩
  · rw [accepted_tableGen_of_not_valid hv] at hexec
    have hrun := run_enterGen_tableGen (s := latchCommand .crc16TableGen 0 s) hr rfl
    rw [show genSteps = 2304 from rfl] at hrun
    exact ⟨_, _, hexec, fun hv' => by simp [hv] at hv', fun _ => ⟨rfl, hrun⟩, rfl, rfl, rfl,
      wholeTable_full s.table, rfl, rfl, rfl⟩

/-- Settles O40: acceptance latches the command, and without a valid table also enters GEN. -/
theorem tableGenFrame : Obligations.TableGenFrame := by
  intro s t hp h
  rw [accepted_of_exec hp h]
  rcases s.tvalid.eq_false_or_eq_true with hv | hv
  · rw [accepted_tableGen_of_valid hv]
    exact ⟨rfl, rfl, rfl, rfl, rfl, rfl, rfl, rfl, fun _ => rfl, rfl, rfl, fun _ => ⟨rfl, rfl, rfl, hp⟩⟩
  · rw [accepted_tableGen_of_not_valid hv]
    exact ⟨rfl, rfl, rfl, rfl, rfl, rfl, rfl, rfl, fun _ => rfl, rfl, rfl, fun hv' => by simp [hv] at hv'⟩

/-! ## The micro-steps of GEN -/

theorem engineStep_gen_round (hp : s.phase = .gen) (hk : s.rk.val < 8) : engineStep s = .next (genRound s) := by
  rw [engineStep_gen hp, genStep_of_lt hk]

theorem engineStep_gen_commit (hp : s.phase = .gen) (hk : s.rk.val = 8) : engineStep s = .next (genCommit s) := by
  rw [engineStep_gen hp, genStep_of_eq hk]

/-- Whichever operation generates, the end of the generation publishes the table and leaves GEN. -/
theorem finishGen_publishes (s : State) :
    (finishGen s).table = s.table ∧ (finishGen s).tvalid = true ∧ (finishGen s).phase ≠ .gen := by
  rw [finishGen]
  split <;> exact ⟨rfl, rfl, nofun⟩

/-- Before its 2304th micro-step the generation is at a round or the commit of some entry, in GEN. -/
theorem run_enterGen_phase (hr : s.resetLine = false) {n : Nat} (hn : n < 2304) (h : run n (enterGen s) = .next t) :
    t.phase = .gen := by
  have hk : n % 9 < 9 := Nat.mod_lt n (by decide)
  have hrk : (genAt s (n / 9)).rk.val + n % 9 < 9 := (Nat.zero_add _).trans_lt hk
  have hrounds := run_rounds (s := genAt s (n / 9)) hr rfl (n % 9) hrk
  rw [← Nat.div_add_mod n 9, enterGen_eq_genAt, run_add _ _ (run_genAt hr (n / 9) (by omega)), hrounds] at h
  cases h
  rfl

/-- Settles O16: the micro-steps are the named ones, `genAt` holds after each nine of them, and the 2304th is the
commit of entry 255. -/
theorem genMicroSteps : Obligations.GenMicroSteps := by
  refine ⟨fun s hp hk => engineStep_gen_round hp hk, fun s hp hk hi => ?commit, fun s hp hk hi ho => ?lastFold,
    fun s hp hk hi ho => ?lastIdle, fun s hr => ⟨fun k hk => ?entries, ?whole, fun n u => run_enterGen_phase hr⟩⟩
  case commit =>
    rw [engineStep_gen_commit hp hk, genCommit_of_lt hi]
    rfl
  case lastFold =>
    have hfinish := finishGen_of_fold (s := commitEntry s) ho
    rw [engineStep_gen_commit hp hk, genCommit_of_last hi, hfinish]
    rfl
  case lastIdle =>
    have hfinish := finishGen_of_tableGen (s := commitEntry s) ho
    rw [engineStep_gen_commit hp hk, genCommit_of_last hi, hfinish]
    rfl
  case entries =>
    have hti : (BitVec.ofNat 8 k).toNat = k := by simp only [BitVec.toNat_ofNat]; omega
    exact ⟨genAt s k, run_genAt hr k hk, rfl, hti, rfl, rfl, fun j => readTable_tableLoop s.table k (by omega) j⟩
  case whole =>
    obtain ⟨htable, htvalid, hphase⟩ := finishGen_publishes (genDone s)
    refine ⟨_, run_generation hr rfl, ?_, htvalid, hphase⟩
    rw [htable]
    exact wholeTable_full s.table

/-! ## What a micro-step leaves -/

/-- Of the table GEN writes entry `TI` alone, in its commit; `ACC`, `IDX` and `TVALID` change in the last commit alone
(R61). -/
theorem engineStep_gen_frame (hp : s.phase = .gen) (h : engineStep s = .next t) :
    t.sum = s.sum ∧ t.csum = s.csum ∧ t.result = s.result ∧ t.rvalid = s.rvalid ∧
    (∀ j, j ≠ s.ti ∨ s.rk.val ≠ 8 → readTable t.table j = readTable s.table j) ∧
    (¬(s.rk.val = 8 ∧ s.ti = 255#8) → t.acc = s.acc ∧ t.idx = s.idx ∧ t.tvalid = s.tvalid) := by
  have other : s.rk.val = 8 → ∀ j, j ≠ s.ti ∨ s.rk.val ≠ 8 →
      readTable (commitEntry s).table j = readTable s.table j := fun hk j hj => by
    rw [commitEntry_table, readTable_writeTable, if_neg (hj.resolve_right (not_not.mpr hk))]
  cases engineStep_cases h with
  | round _ hk ht => subst ht; exact ⟨rfl, rfl, rfl, rfl, fun _ _ => rfl, fun _ => ⟨rfl, rfl, rfl⟩⟩
  | commit _ hk hi ht => subst ht; exact ⟨rfl, rfl, rfl, rfl, other hk, fun _ => ⟨rfl, rfl, rfl⟩⟩
  | lastFold _ hk hi ho ht => subst ht; exact ⟨rfl, rfl, rfl, rfl, other hk, fun hne => absurd ⟨hk, hi⟩ hne⟩
  | lastIdle _ hk hi ho ht => subst ht; exact ⟨rfl, rfl, rfl, rfl, other hk, fun hne => absurd ⟨hk, hi⟩ hne⟩
  | _ => simp_all  -- the other cases start in another PHASE

/-- FOLD writes `ACC` and `IDX`, and delivers in its last micro-step alone (R76). -/
theorem engineStep_fold_frame (hp : s.phase = .fold) (h : engineStep s = .next t) :
    t.table = s.table ∧ t.tvalid = s.tvalid ∧ t.w = s.w ∧ t.ti = s.ti ∧ t.rk = s.rk ∧ t.sum = s.sum ∧
    t.csum = s.csum ∧ (s.idx ≠ s.len → t.result = s.result ∧ t.rvalid = s.rvalid) := by
  cases engineStep_cases h with
  | foldByte _ hl hb e he ht => subst ht; exact ⟨rfl, rfl, rfl, rfl, rfl, rfl, rfl, fun _ => ⟨rfl, rfl⟩⟩
  | foldFinish _ hl ht => subst ht; exact ⟨rfl, rfl, rfl, rfl, rfl, rfl, rfl, fun hne => absurd hl hne⟩
  | _ => simp_all  -- the other cases start in another PHASE

/-- ACCUM writes `SUM`, `CSUM` and `IDX`, and delivers in its last micro-step alone (R90). -/
theorem engineStep_accum_frame (hp : s.phase = .accum) (h : engineStep s = .next t) :
    t.table = s.table ∧ t.tvalid = s.tvalid ∧ t.w = s.w ∧ t.ti = s.ti ∧ t.rk = s.rk ∧ t.acc = s.acc ∧
    (s.idx ≠ s.len → t.result = s.result ∧ t.rvalid = s.rvalid) := by
  cases engineStep_cases h with
  | accumByte _ hl hb ht => subst ht; exact ⟨rfl, rfl, rfl, rfl, rfl, rfl, fun _ => ⟨rfl, rfl⟩⟩
  | accumFinish _ hl ht => subst ht; exact ⟨rfl, rfl, rfl, rfl, rfl, rfl, fun hne => absurd hl hne⟩
  | _ => simp_all  -- the other cases start in another PHASE

/-- Settles O43: what every micro-step leaves, then the frame of each PHASE. -/
theorem microStepFrame : Obligations.MicroStepFrame := by
  intro s t h
  obtain ⟨hbuf, hcmdWord, hcmdBuf, hreset, hop, hlen⟩ := engineStep_keeps h
  exact ⟨hop, hlen, hbuf, fun a => by rw [hbuf], hcmdWord, hcmdBuf, hreset, fun hp => engineStep_gen_frame hp h,
    fun hp => engineStep_fold_frame hp h, fun hp => engineStep_accum_frame hp h⟩

/-! ## The micro-steps refine the command level, whatever is at the port -/

theorem generateTable_withPort (x : Option U32) (B : Buffer) (s : State) :
    generateTable (withPort x B s) = withPort x B (generateTable s) := by
  rw [generateTable, generateTable, withPort_tvalid]
  split <;> rfl

theorem enterFoldOrGen_withPort (x : Option U32) (B : Buffer) (s : State) :
    enterFoldOrGen (withPort x B s) = withPort x B (enterFoldOrGen s) := by
  rw [enterFoldOrGen, enterFoldOrGen, withPort_tvalid]
  split <;> rfl

theorem run_accepted_tableGen_withPort (x : Option U32) (B : Buffer) (hp : s.phase = .idle)
    (hr : s.resetLine = false) :
    run (microSteps .crc16TableGen s) (withPort x B (accepted .crc16TableGen s)) =
      .next (withPort x B (commandTableGen s)) := by
  rw [microSteps, accepted, commandTableGen, generateTable, latchCommand_tvalid]
  split
  case isTrue => rfl
  case isFalse =>
    have hrun := run_enterGen_tableGen (s := withPort x B (latchCommand .crc16TableGen 0 s)) hr rfl
    have hidle : becomeIdle (generated (wholeTable s.table) (withPort x B (latchCommand .crc16TableGen 0 s))) =
        withPort x B (generated (wholeTable s.table) (latchCommand .crc16TableGen 0 s)) := by
      rw [becomeIdle, ← hp]
      rfl
    exact hrun.trans (congrArg _ hidle)

theorem run_accepted_polyFold_withPort (x : Option U32) (B : Buffer) {L : Nat} (hr : s.resetLine = false)
    (ht : s.tvalid = true → TableFull s.table) (hl : L ≤ s.cmdBuf.size.toNat) :
    run (microSteps (.crc16PolyFold L) s) (withPort x B (accepted (.crc16PolyFold L) s)) =
      .next (withPort x B (commandPolyFold L s)) := by
  have hlen : (lenOperand L).toNat = L := lenOperand_toNat_of_le hl
  have hrun := run_enterFoldOrGen (s := withPort x B (takeBuffer s.cmdBuf (latchCommand .crc16PolyFold L s))) hr ht rfl
    (by simpa [hlen] using hl)
  simp only [generateTable_withPort, enterFoldOrGen_withPort, withPort_tvalid, takeBuffer_tvalid, latchCommand_tvalid,
    withPort_len, takeBuffer_len, latchCommand_len, withPort_buf, takeBuffer_buf, hlen] at hrun
  exact hrun

theorem run_accepted_checksum_withPort (x : Option U32) (B : Buffer) {L : Nat} (hr : s.resetLine = false)
    (hl : L ≤ s.cmdBuf.size.toNat) :
    run (microSteps (.checksum8Accum L) s) (withPort x B (accepted (.checksum8Accum L) s)) =
      .next (withPort x B (commandChecksum L s)) := by
  have hlen : (lenOperand L).toNat = L := lenOperand_toNat_of_le hl
  have hrun := run_accum_all (s := withPort x B (takeBuffer s.cmdBuf (latchCommand .checksum8Accum L s))) hr
    (by simpa [hlen] using hl)
  simp only [withPort_len, takeBuffer_len, latchCommand_len, withPort_buf, takeBuffer_buf, hlen] at hrun
  exact hrun

/-- Settles O13: the entry actions and their loops run alike whatever word and buffer are at the port. -/
theorem commandRefinement : Obligations.CommandRefinement := by
  intro i s _ hp hr ht ha
  refine ⟨accepted i s, exec_of_acceptable hp ha, fun x B => ?_⟩
  cases i with
  | crc16TableGen => exact run_accepted_tableGen_withPort x B hp hr
  | crc16PolyFold L => exact run_accepted_polyFold_withPort x B hr ht (lengthOk_iff.mp ha)
  | checksum8Accum L => exact run_accepted_checksum_withPort x B hr (lengthOk_iff.mp ha)

end Sys2Proof.Machine
end

section
/-! SUPPORT. The fold of one byte (spec/41_crc16_poly_fold.md R70) as eight rounds on the accumulator (R79 e), two folds
as sixteen, and what follows for short messages (R79 d); CRC and checksum read the bytes below the length alone (R79 b,
R91 e). -/

namespace Sys2Proof.Machine

/-! ## Rounds one after another -/

theorem crcRounds_add (m n : Nat) (w : U16) : crcRounds (m + n) w = crcRounds m (crcRounds n w) := by
  induction m with
  | zero => rw [Nat.zero_add, crcRounds_zero]
  | succ m ih => rw [Nat.succ_add, crcRounds_succ, crcRounds_succ, ih]

theorem crcRounds_injective (k : Nat) : Function.Injective (crcRounds k) := by
  intro a b h
  have hzero : crcRounds k (a ^^^ b) = 0#16 := by rw [crcRounds_xor, h, BitVec.xor_self]
  exact BitVec.xor_eq_zero_iff.mp (eq_zero_of_crcRounds_eq_zero hzero)

/-- Up to eight rounds only shift a byte in the low octet: bit 15 stays clear before each of them (R57). -/
theorem crcRounds_lowOctet (b : U8) {k : Nat} (hk : k ≤ 8) : crcRounds k (b.setWidth 16) = b.setWidth 16 <<< k := by
  induction k with
  | zero => rw [crcRounds_zero, BitVec.shiftLeft_zero]
  | succ k ih =>
    have hclear : (b.setWidth 16 <<< k)[15] = false := by
      rw [BitVec.getElem_shiftLeft, BitVec.getElem_setWidth, BitVec.getLsbD_of_ge b _ (by omega), Bool.and_false]
    rw [crcRounds_succ, ih (by omega), crcRound, hclear, if_neg Bool.false_ne_true, BitVec.shiftLeft_add]

/-! ## The two octets of a word -/

/-- The octets do not overlap, so joining them is XOR. -/
theorem append_eq_xor_octets (a b : U8) : (a ++ b : U16) = highOctet a ^^^ b.setWidth 16 := by
  refine BitVec.eq_of_getLsbD_eq fun i hi => ?_
  have hword : i - 8 < 16 := by omega
  rw [BitVec.getLsbD_append, highOctet, BitVec.getLsbD_xor, BitVec.getLsbD_shiftLeft]
  split
  case isTrue hlow => simp [hlow, hi]
  case isFalse hhigh => simp [hhigh, hi, hword, BitVec.getLsbD_of_ge b i (by omega)]

theorem append_octets_injective {a b c d : U8} (h : (a ++ b : U16) = c ++ d) : a = c ∧ b = d := by
  have hhigh := congrArg (BitVec.extractLsb' 8 8) h
  have hlow := congrArg (BitVec.extractLsb' 0 8) h
  rw [BitVec.extractLsb'_append_eq_left, BitVec.extractLsb'_append_eq_left] at hhigh
  rw [BitVec.extractLsb'_append_eq_right, BitVec.extractLsb'_append_eq_right] at hlow
  exact ⟨hhigh, hlow⟩

/-- A shift by eight keeps the low octet alone. -/
theorem shiftLeft_eight (acc : U16) : acc <<< 8 = (acc.extractLsb' 0 8).setWidth 16 <<< 8 := by
  refine BitVec.eq_of_getLsbD_eq fun i hi => ?_
  have hlow : i - 8 < 8 := by omega
  have hword : i - 8 < 16 := by omega
  simp [hlow, hword]

/-! ## The fold as rounds -/

/-- The low octet of the accumulator moves up under eight rounds, and its high octet joins the byte as the index of the
entry, which is eight rounds itself (R58, R70). -/
theorem fold_eq_crcRounds (acc : U16) (b : U8) : fold acc b = crcRounds 8 (acc ^^^ highOctet b) := by
  have hshift : acc <<< 8 = crcRounds 8 ((acc.extractLsb' 0 8).setWidth 16) := by
    rw [crcRounds_lowOctet _ le_rfl, ← shiftLeft_eight]
  have hacc : acc = highOctet (acc.extractLsb' 8 8) ^^^ (acc.extractLsb' 0 8).setWidth 16 := by
    rw [← append_eq_xor_octets]
    exact BitVec.extractLsb'_append_extractLsb' (w := 8) (len := 8) |>.symm
  calc fold acc b
      = crcRounds 8 ((acc.extractLsb' 0 8).setWidth 16) ^^^ crcRounds 8 (highOctet (acc.extractLsb' 8 8 ^^^ b)) := by
        rw [← hshift]; rfl
    _ = crcRounds 8 (highOctet (acc.extractLsb' 8 8) ^^^ (acc.extractLsb' 0 8).setWidth 16 ^^^ highOctet b) := by
        rw [← crcRounds_xor, highOctet_xor]; ac_rfl
    _ = crcRounds 8 (acc ^^^ highOctet b) := by rw [← hacc]

/-- Settles O22: R79 (e) is `fold_eq_crcRounds`. -/
theorem foldIsEightRounds : Obligations.FoldIsEightRounds := fold_eq_crcRounds

/-- The second byte enters after eight rounds as if it had stood in the low octet before them. -/
theorem fold_fold_eq_crcRounds (acc : U16) (a b : U8) :
    fold (fold acc a) b = crcRounds 16 (acc ^^^ (a ++ b : U16)) := by
  have hb : highOctet b = crcRounds 8 (b.setWidth 16) := (crcRounds_lowOctet b le_rfl).symm
  rw [fold_eq_crcRounds, fold_eq_crcRounds, hb, ← crcRounds_xor, ← crcRounds_add, append_eq_xor_octets,
    BitVec.xor_assoc]

/-! ## Short messages -/

theorem crc16_ofBytes_one (a : U8) : crc16 (Buffer.ofBytes [a]) 1 = fold Config.seed a := by
  rw [crc16_succ, crc16_zero, Buffer.byteAt_ofBytes _ (by simp)]
  rfl

theorem crc16_ofBytes_two (a b : U8) : crc16 (Buffer.ofBytes [a, b]) 2 = fold (fold Config.seed a) b := by
  rw [crc16_succ, crc16_succ, crc16_zero, Buffer.byteAt_ofBytes _ (by simp), Buffer.byteAt_ofBytes _ (by simp)]
  rfl

theorem crc16_one_injective {a b : U8} (h : crc16 (Buffer.ofBytes [a]) 1 = crc16 (Buffer.ofBytes [b]) 1) : a = b := by
  rw [crc16_ofBytes_one, crc16_ofBytes_one, fold, fold, foldWith, foldWith] at h
  exact (BitVec.xor_right_inj _).mp (entry_injective ((BitVec.xor_right_inj _).mp h))

theorem crc16_two_injective {a b c d : U8}
    (h : crc16 (Buffer.ofBytes [a, b]) 2 = crc16 (Buffer.ofBytes [c, d]) 2) : a = c ∧ b = d := by
  rw [crc16_ofBytes_two, crc16_ofBytes_two, fold_fold_eq_crcRounds, fold_fold_eq_crcRounds] at h
  exact append_octets_injective ((BitVec.xor_right_inj _).mp (crcRounds_injective 16 h))

/-- Settles O24: one byte is an entry's index and two bytes are sixteen rounds, both injective; the order clause is the
two-byte clause at a swapped pair. -/
theorem shortInputsDistinct : Obligations.ShortInputsDistinct :=
  ⟨fun _ _ => crc16_one_injective, fun _ _ _ _ => crc16_two_injective, fun _ _ hne h => hne (crc16_two_injective h).1⟩

/-- Settles O23: both functions read the bytes below the length alone. -/
theorem prefixLaw : Obligations.PrefixLaw := fun _ _ _ h => ⟨crc16_congr h, checksum8_congr h⟩

/-! ## The fold on the numbers -/

theorem getElem_tgenTable (i : U8) : tgenTable[i.toNat]'i.isLt = entry i := by
  rw [tgenTable, Vector.getElem_ofFn]
  rfl

theorem toNat_tableIndex (acc : U16) (b : U8) : (tableIndex acc b).toNat = (acc.toNat / 256) ^^^ b.toNat := by
  have := acc.isLt
  rw [tableIndex, BitVec.toNat_xor, BitVec.extractLsb'_toNat, Nat.shiftRight_eq_div_pow, Nat.mod_eq_of_lt (by omega)]

theorem toNat_foldWith (acc e : U16) : (foldWith acc e).toNat = (acc.toNat * 256 % 2 ^ 16) ^^^ e.toNat := by
  rw [foldWith, BitVec.toNat_xor, BitVec.toNat_shiftLeft, Nat.shiftLeft_eq]

/-- Settles O21: the index is a u8 and selects the entry of R59; in FOLD the invariants give a valid table, hence a full
one. -/
theorem foldRule : Obligations.FoldRule := by
  refine ⟨fun acc b => ?_, fun s i hi hp => ?_⟩
  · simp only [← toNat_tableIndex, getElem_tgenTable]
    exact ⟨(tableIndex acc b).isLt, toNat_foldWith acc _⟩
  · have hv := hi.foldValid hp
    exact ⟨hv, by rw [getElem_tgenTable, hi.table hv i]⟩

end Sys2Proof.Machine
end

section
/-! SUPPORT. The command crc16_poly_fold (spec/41_crc16_poly_fold.md): its acceptance and entry action (R75), the
micro-steps of FOLD (R76), and the whole fold after 0 or 2304 micro-steps of GEN. -/

namespace Sys2Proof.Machine

variable {s t : State}

/-! ## The acceptance -/

/-- What acceptance does before the entry action (R51, R52). -/
def latchedFold (L : Nat) (s : State) : State := takeBuffer s.cmdBuf (latchCommand .crc16PolyFold L s)

theorem accepted_polyFold_of_valid (L : Nat) (hv : s.tvalid = true) :
    accepted (.crc16PolyFold L) s = enterFold (latchedFold L s) := if_pos hv

theorem accepted_polyFold_of_not_valid (L : Nat) (hv : s.tvalid = false) :
    accepted (.crc16PolyFold L) s = enterGen (latchedFold L s) := if_neg (by simp [hv])

/-- Settles O41: acceptance latches the command and the buffer, then enters FOLD, which writes `ACC` and `IDX`, or GEN,
which writes `W`, `TI` and `RK`. -/
theorem polyFoldFrame : Obligations.PolyFoldFrame := by
  intro s t L hp h
  rw [accepted_of_exec hp h]
  rcases s.tvalid.eq_false_or_eq_true with hv | hv
  · rw [accepted_polyFold_of_valid L hv]
    exact ⟨rfl, rfl, rfl, rfl, rfl, rfl, fun _ => rfl, rfl, rfl, fun _ => ⟨rfl, rfl, rfl⟩,
      fun hv' => by simp [hv] at hv'⟩
  · rw [accepted_polyFold_of_not_valid L hv]
    exact ⟨rfl, rfl, rfl, rfl, rfl, rfl, fun _ => rfl, rfl, rfl, fun hv' => by simp [hv] at hv', fun _ => ⟨rfl, rfl⟩⟩

/-! ## The micro-steps of FOLD -/

/-- Where a fold waits for the table, the generation ends at the start of FOLD (R61, R75). -/
theorem run_enterGen_polyFold (hr : s.resetLine = false) (ho : s.op = .crc16PolyFold) :
    run 2304 (enterGen s) = .next (enterFold (generated (wholeTable s.table) s)) := by
  have hfinish : finishGen (genDone s) = enterFold (publishTable (genDone s)) := finishGen_of_fold ho
  rw [run_generation hr rfl, hfinish]
  rfl

/-- Up to the `LEN`-th micro-step the fold stays in FOLD (R76). -/
theorem run_enterFold_phase (hr : s.resetLine = false) (ht : TableFull s.table)
    (hl : s.len.toNat ≤ s.buf.size.toNat) {n : Nat} (hn : n ≤ s.len.toNat) (h : run n (enterFold s) = .next t) :
    t.phase = .fold := by
  rw [run_fold hr ht hl hn] at h
  cases h
  rfl

/-- Settles O17: fold_byte and fold_finish are the model's micro-steps, `run_fold_all` is the whole fold, and the
generation leads to its start. -/
theorem foldMicroSteps : Obligations.FoldMicroSteps := by
  refine ⟨fun s e hp hi hl he => ?byte, fun s hp hi => ?finish,
    fun s hr ht hl => ⟨⟨_, run_fold_all hr ht hl, rfl, rfl, rfl⟩, fun n u => run_enterFold_phase hr ht hl,
      fun h0 => ?empty⟩, fun s hr ho hl => ?generate⟩
  case byte =>
    rw [engineStep_fold hp, foldStep_of_lt hi, foldByte_eq (hi.trans_le hl) he]
    rfl
  case finish =>
    rw [engineStep_fold hp, foldStep_of_eq hi]
    rfl
  case empty =>
    have hrun := run_fold_all hr ht hl
    rw [h0] at hrun
    exact ⟨_, hrun, rfl⟩
  case generate =>
    have hfold := run_fold_all (s := generated (wholeTable s.table) s) hr (wholeTable_full s.table) hl
    exact ⟨_, _, run_enterGen_polyFold hr ho, rfl, hfold, rfl, rfl, rfl⟩

/-! ## The command -/

/-- The fold of an accepted command, from the start of FOLD, on the length as the command gives it. -/
theorem run_enterFold_latched {L : Nat} (hr : s.resetLine = false) (ht : TableFull s.table)
    (hlen : s.len = lenOperand L) (hl : L ≤ s.buf.size.toNat) :
    run (L + 1) (enterFold s) =
      .next (deliver (crc16 s.buf L) (afterFold (crc16 s.buf L) L (enterFold s))) := by
  have hL : s.len.toNat = L := by rw [hlen, lenOperand_toNat_of_le hl]
  have hrun := run_fold_all hr ht (hL ▸ hl)
  rwa [hL] at hrun

/-- Settles O11: acceptance enters FOLD, or GEN whose generation leads to FOLD with a full table; from there the fold
delivers. -/
theorem polyFoldCommand : Obligations.PolyFoldCommand := by
  intro s L hp hr ht hl
  have hlen : (lenOperand L).toNat = L := lenOperand_toNat_of_le hl
  have hexec := exec_of_acceptable (i := .crc16PolyFold L) hp (lengthOk_iff.mpr hl)
  rcases s.tvalid.eq_false_or_eq_true with hv | hv
  · have hfold := run_enterFold_latched (s := latchedFold L s) hr (ht hv) rfl hl
    rw [accepted_polyFold_of_valid L hv] at hexec
    exact ⟨_, _, _, hexec, fun _ => ⟨rfl, rfl⟩, fun hv' => by simp [hv] at hv', rfl, rfl, rfl, hv, hfold, rfl, rfl, rfl,
      rfl, hlen, ht hv, hv, rfl, hlen, rfl, rfl, fun _ => rfl⟩
  · have hfold := run_enterFold_latched (s := generated (wholeTable s.table) (latchedFold L s)) hr
      (wholeTable_full s.table) rfl hl
    rw [accepted_polyFold_of_not_valid L hv] at hexec
    exact ⟨_, _, _, hexec, fun hv' => by simp [hv] at hv', fun _ => ⟨rfl, run_enterGen_polyFold hr rfl⟩, rfl, rfl, rfl,
      rfl, hfold, rfl, rfl, rfl, rfl, hlen, wholeTable_full s.table, rfl, rfl, hlen, rfl, rfl,
      fun hv' => by simp [hv] at hv'⟩

end Sys2Proof.Machine
end

section
/-! SUPPORT. The negation of a byte sum (spec/42_checksum8_accum.md R82) and what it makes of a message and its
checksum (R85, R86); the width of the register that keeps the sum (R87, R88). -/

namespace Sys2Proof.Machine

variable {B : Buffer} {L : Nat}

/-! ## The negation -/

theorem neg8_toNat (n : Nat) : (neg8 n).toNat = (0x100 - n % 256) % 256 := BitVec.toNat_ofNat _ _

/-- The negation depends on the sum's remainder alone. -/
theorem neg8_congr {m n : Nat} (h : m % 256 = n % 256) : neg8 m = neg8 n := by
  rw [neg8, neg8, h]

/-- The negation is the one byte that closes the sum (R82). -/
theorem eq_neg8_iff {n : Nat} {c : U8} : c = neg8 n ↔ (n + c.toNat) % 256 = 0 := by
  have hc := c.isLt
  rw [← BitVec.toNat_inj, neg8_toNat]
  omega

theorem neg8_eq_zero_iff {n : Nat} : neg8 n = 0#8 ↔ n % 256 = 0 := by
  rw [eq_comm, eq_neg8_iff, BitVec.toNat_zero, Nat.add_zero]

/-- Settles O26: both forms are remainders of `-s`; uniqueness is `eq_neg8_iff`. -/
theorem negationForms : Obligations.NegationForms := by
  refine fun s => ⟨?signed, neg8_toNat s, fun c => eq_neg8_iff.symm, neg8_eq_zero_iff⟩
  case signed =>
    rw [neg8_toNat]
    omega

/-! ## The checksum of a message -/

/-- Settles O27: the checksum is the negation of the sum, `L` = 0 included, and so closes it. -/
theorem checksumCloses : Obligations.ChecksumCloses :=
  fun B L => eq_neg8_iff.mp (checksum8_eq_neg8 B L)

theorem checksum8_eq_zero_iff : checksum8 B L = 0#8 ↔ byteSum B L % 256 = 0 := by
  rw [checksum8_eq_neg8, neg8_eq_zero_iff]

/-- Settles O28: the receiver's sum is the payload's and the checksum byte, which closes it. -/
theorem receiverObtainsZero : Obligations.ReceiverObtainsZero := by
  refine ⟨fun B B' L hsame hlast => ?_, fun _ _ => checksum8_eq_zero_iff⟩
  rw [checksum8_eq_zero_iff, byteSum_succ, byteSum_congr hsame, hlast]
  exact checksumCloses B L

/-! ## The width of the sum -/

/-- A register of any width keeps the sum's low bits. -/
theorem sumOfWidth_eq_ofNat (N : Nat) (B : Buffer) (k : Nat) : sumOfWidth N B k = BitVec.ofNat N (byteSum B k) := by
  induction k with
  | zero => rfl
  | succ k ih => rw [sumOfWidth, byteSum_succ, BitVec.ofNat_add, BitVec.ofNat_toNat, ih]

theorem sumOfWidth_toNat (N : Nat) (B : Buffer) (k : Nat) : (sumOfWidth N B k).toNat = byteSum B k % 2 ^ N := by
  rw [sumOfWidth_eq_ofNat, BitVec.toNat_ofNat]

/-- A reading as two's complement differs from the unsigned one by a multiple of `2 ^ N`, hence of 256. -/
theorem toInt_emod_256 {N : Nat} (hN : 8 ≤ N) (x : BitVec N) : x.toInt % 256 = (x.toNat : Int) % 256 := by
  have hdvd : (256 : Int) ∣ ((2 ^ N : Nat) : Int) := Int.natCast_dvd_natCast.mpr (Nat.pow_dvd_pow 2 hN)
  calc x.toInt % 256
      = x.toInt % ((2 ^ N : Nat) : Int) % 256 := (Int.emod_emod_of_dvd _ hdvd).symm
    _ = (x.toNat : Int) % ((2 ^ N : Nat) : Int) % 256 := by rw [BitVec.toInt_eq_toNat_bmod, Int.bmod_emod]
    _ = (x.toNat : Int) % 256 := Int.emod_emod_of_dvd _ hdvd

/-- Settles O29: from 8 bits up 256 divides `2 ^ N`, so neither the width nor the sign changes the remainder. -/
theorem sumWidthIrrelevant : Obligations.SumWidthIrrelevant := by
  intro N B k hN
  have hnat : (sumOfWidth N B k).toNat % 256 = byteSum B k % 256 := by
    rw [sumOfWidth_toNat]
    exact Nat.mod_mod_of_dvd _ (Nat.pow_dvd_pow 2 hN)
  refine ⟨hnat, ?_, ?_⟩
  · rw [toInt_emod_256 hN]
    exact_mod_cast hnat
  · rw [checksum8_eq_neg8]
    exact neg8_congr hnat

/-- Settles O30: 65535 bytes of at most 255 sum to at most 16711425, which 32 bits hold. -/
theorem sumNeverWraps : Obligations.SumNeverWraps := by
  intro B L hL
  refine ⟨(byteSum_le B L).trans (Nat.mul_le_mul_left 255 hL), ?_⟩
  rw [sumOfWidth_toNat]
  exact Nat.mod_eq_of_lt (byteSum_lt B (Nat.lt_succ_of_le hL))

end Sys2Proof.Machine
end

section
/-! SUPPORT. The command checksum8_accum (spec/42_checksum8_accum.md): its acceptance and entry action (R89) and the
micro-steps of ACCUM (R90). -/

namespace Sys2Proof.Machine

variable {s t : State}

/-! ## The micro-steps of ACCUM -/

/-- Up to the `LEN`-th micro-step the sum stays in ACCUM (R90). -/
theorem run_enterAccum_phase (hr : s.resetLine = false) (hl : s.len.toNat ≤ s.buf.size.toNat) {n : Nat}
    (hn : n ≤ s.len.toNat) (h : run n (enterAccum s) = .next t) : t.phase = .accum := by
  rw [run_accum hr hl hn] at h
  cases h
  rfl

/-- A byte widened to a word (R90: `zext_16`) stands in the low octet, and the high octet is clear. -/
theorem octets_setWidth (c : U8) :
    (c.setWidth 16).extractLsb' 0 8 = c ∧ (c.setWidth 16).extractLsb' 8 8 = 0#8 := by
  have hword : c.setWidth 16 = (0#8 ++ c : U16) := by
    rw [append_eq_xor_octets, show highOctet 0#8 = 0#16 from rfl, BitVec.zero_xor]
  rw [hword]
  exact ⟨BitVec.extractLsb'_append_eq_right, BitVec.extractLsb'_append_eq_left⟩

/-- Settles O18: accum_byte and accum_finish are the model's micro-steps, and `run_accum_all` is the whole operation. -/
theorem accumMicroSteps : Obligations.AccumMicroSteps := by
  refine ⟨fun s hp hi hl => ?byte, fun s hp hi => ?finish,
    fun s hr hl => ⟨?whole, fun n u => run_enterAccum_phase hr hl, fun h0 => ?empty⟩⟩
  case byte =>
    refine ⟨s.sum + (s.buf.byteAt s.idx.toNat).setWidth 32, by simp, ?_⟩
    rw [engineStep_accum hp, accumStep_of_lt hi, accumByte_eq (hi.trans_le hl)]
    rfl
  case finish =>
    rw [engineStep_accum hp, accumStep_of_eq hi]
    rfl
  case whole =>
    obtain ⟨hlow, hhigh⟩ := octets_setWidth (checksum8 s.buf s.len.toNat)
    exact ⟨_, run_accum_all hr hl, rfl, rfl, hlow, hhigh⟩
  case empty =>
    have hrun := run_accum_all hr hl
    rw [h0] at hrun
    exact ⟨_, hrun, rfl⟩

/-! ## The command -/

/-- Settles O42: acceptance latches the command and the buffer, then enters ACCUM, which writes `SUM`, `CSUM` and
`IDX`. -/
theorem checksumFrame : Obligations.ChecksumFrame := by
  intro s t L hp h
  rw [accepted_of_exec hp h]
  exact ⟨rfl, rfl, rfl, rfl, rfl, rfl, rfl, rfl, fun _ => rfl, rfl, rfl⟩

/-- Settles O12: acceptance enters ACCUM, and the `LEN` + 1 micro-steps end in the state of the command level, whose sum
does not wrap. -/
theorem checksumCommand : Obligations.ChecksumCommand := by
  intro s L hp hr hl
  have hexec := exec_of_acceptable (i := .checksum8Accum L) hp (lengthOk_iff.mpr hl)
  have hlen : (lenOperand L).toNat = L := lenOperand_toNat_of_le hl
  have hsum : (BitVec.ofNat 32 (byteSum s.cmdBuf L)).toNat = byteSum s.cmdBuf L :=
    (BitVec.toNat_ofNat _ _).trans (Nat.mod_eq_of_lt (byteSum_lt s.cmdBuf (hl.trans_lt s.cmdBuf.size.isLt)))
  exact ⟨_, _, hexec, rfl, run_accepted_checksum hr hl, rfl, rfl, rfl, rfl, hlen, hsum, rfl, rfl, rfl, rfl, rfl, rfl,
    rfl⟩

end Sys2Proof.Machine
end

section
/-! SUPPORT. The order of events and the absence of faults (spec/60_exceptions.md R92, R97): with the invariants one
micro-step of a busy engine is always enabled; and a ready block is ready again after each line of a script (R103,
R110). -/

namespace Sys2Proof.Machine

variable {s t : State}

/-! ## The order of events -/

/-- A command that runs is never refused as a reserved word. -/
theorem exec_ne_reservedCommand (i : Instr) (s : State) (why : Reserved) :
    exec i s ≠ .refused (.reservedCommand why) := by
  by_cases hp : s.phase = .idle
  · rw [exec_of_idle i hp]
    split <;> simp
  · rw [exec_of_busy i hp]
    exact engineStep_ne_refused s _

/-- Settles O9: each clause is the equation of `step` for its event; a micro-step leaves the port alone, and no command
is refused as reserved. -/
theorem eventPriority : Obligations.EventPriority := by
  refine fun s => ⟨step_of_reset, fun hr hp => ⟨step_of_busy hr hp, fun t ht => ?busy⟩, step_of_empty,
    fun hr hp c hw => ⟨fun why hd => step_of_reserved hr hp hw hd, fun i hd => ?legal⟩⟩
  case busy =>
    obtain ⟨-, hcmdWord, hcmdBuf, -⟩ := engineStep_keeps ht
    exact ⟨hcmdWord, hcmdBuf⟩
  case legal =>
    have hstep := step_of_cmd hr hp hw hd
    exact ⟨hstep, fun why => hstep ▸ exec_ne_reservedCommand i s why⟩

/-! ## No fault -/

/-- In FOLD a byte is left, whose index is in range and whose table entry is written, or every byte is consumed. -/
theorem exists_foldStep (h : Inv s) (hp : s.phase = .fold) : ∃ t, foldStep s = .next t := by
  have hl := h.foldLoop hp
  rcases hl.idx.lt_or_eq with hi | hi
  · exact ⟨_, (foldStep_of_lt hi).trans (foldByte_eq (hi.trans_le hl.len) (h.table (h.foldValid hp) _))⟩
  · exact ⟨_, foldStep_of_eq (BitVec.eq_of_toNat_eq hi)⟩

/-- In ACCUM a byte is left, whose index is in range, or every byte is consumed. -/
theorem exists_accumStep (h : Inv s) (hp : s.phase = .accum) : ∃ t, accumStep s = .next t := by
  have hl := h.accumLoop hp
  rcases hl.idx.lt_or_eq with hi | hi
  · exact ⟨_, (accumStep_of_lt hi).trans (accumByte_eq (hi.trans_le hl.len))⟩
  · exact ⟨_, accumStep_of_eq (BitVec.eq_of_toNat_eq hi)⟩

/-- With the invariants the engine meets none of the model's faults (R26, R37, R92). -/
theorem exists_engineStep (h : Inv s) : ∃ t, engineStep s = .next t := by
  cases hp : s.phase with
  | idle => exact ⟨_, engineStep_idle hp⟩
  | gen => exact ⟨_, engineStep_gen hp⟩
  | fold => simpa only [engineStep_fold hp] using exists_foldStep h hp
  | accum => simpa only [engineStep_accum hp] using exists_accumStep h hp

/-- Settles O34: a busy engine has its micro-step, and an idle block refuses a reserved word or a command that is not
acceptable and nothing else. -/
theorem noFault : Obligations.NoFault := by
  intro s h
  cases hr : s.resetLine with
  | true => exact .inl ⟨_, step_of_reset hr⟩
  | false =>
    by_cases hp : s.phase = .idle
    case neg => simpa only [step_of_busy hr hp] using .inl (exists_engineStep h)
    cases hw : s.cmdWord with
    | none => exact .inl ⟨_, step_of_empty hr hp hw⟩
    | some c =>
      cases hd : decode c with
      | reserved why => exact .inr ⟨rfl, hp, c, rfl, .inl ⟨why, hd, step_of_reserved hr hp hw hd⟩⟩
      | cmd i =>
        have hstep := step_of_cmd hr hp hw hd
        cases ha : acceptable i s with
        | true => exact .inl ⟨_, hstep.trans (exec_of_acceptable hp ha)⟩
        | false =>
          exact .inr ⟨rfl, hp, c, rfl, .inr ⟨i, hd, ha, hstep.trans ((exec_refuses_length_iff i hp).mpr ha)⟩⟩

/-! ## Callers in any order -/

/-- The command level keeps the invariants: it is an acceptance and a run of steps. -/
theorem inv_command {i : Instr} (h : Inv s) (hw : waiting s = false) (ha : acceptable i s = true) :
    Inv (command i s) := by
  obtain ⟨hp, -, hr⟩ := waiting_eq_false.mp hw
  exact run_induction (P := Inv) (fun _ _ => inv_step) (inv_accepted i h hp ha) (run_accepted i hp hr h.table ha)

/-- A command line that completes at a ready block ends in the state of the command level, its length accepted. -/
theorem issue_next {i : Instr} (h : Inv s) (hw : waiting s = false) (hi : issue i s = .next t) :
    acceptable i s = true ∧ t = command i s := by
  by_cases hwf : i.WellFormed
  case neg => simp [issue, show i.wellFormed = false by simpa using hwf] at hi
  cases ha : acceptable i s with
  | false => simp [issue_of_not_acceptable hwf hw ha] at hi
  | true =>
    rw [issue_of_acceptable hwf h hw ha] at hi
    exact ⟨rfl, (Host.Outcome.next.inj hi).symm⟩

/-- A ready block that meets the invariants: where a script line begins and ends. -/
structure Ready (s : State) : Prop where
  notWaiting : waiting s = false
  inv : Inv s

theorem ready_bindLine (h : Ready s) {B : Buffer} (hB : B.wf) (hl : bindLine B s = .next t) : Ready t := by
  rw [bindLine_of_free B (portTaken_of_not_waiting h.notWaiting)] at hl
  cases hl
  exact ⟨waiting_hostBind B h.notWaiting, inv_hostBind h.inv hB⟩

/-- Every line that completes at a ready block leaves it ready. -/
theorem ready_runLine {l : ScriptLine} (h : Ready s) (hl : runLine l s = .next t) : Ready t := by
  cases l with
  | reset =>
    have hstep : step (hostReset s) = .next (takeReset (hostReset s)) := step_of_reset rfl
    cases hstep.symm.trans hl
    exact ⟨rfl, inv_takeReset h.inv.cmdBuf⟩
  | bind bytes => exact ready_bindLine h (Buffer.ofBytes_wf _) hl
  | bindSize bytes n => exact ready_bindLine h (Buffer.ofBytes_wf _) hl
  | command i =>
    obtain ⟨ha, rfl⟩ := issue_next h.inv h.notWaiting hl
    exact ⟨waiting_command i h.notWaiting, inv_command h.inv h.notWaiting ha⟩
  | expectResult v => cases hl; exact h
  | expectElement e => cases hl; exact h

/-- A script that completes has completed its first line. -/
theorem runScript_cons_next {l : ScriptLine} {ls : List ScriptLine} (h : runScript (l :: ls) s = .next t) :
    ∃ u, runLine l s = .next u ∧ runScript ls u = .next t := by
  cases hl : runLine l s with
  | next u => exact ⟨u, rfl, by simpa [runScript, hl] using h⟩
  | fault r => simp [runScript, hl] at h
  | refused r => simp [runScript, hl] at h

theorem ready_runScript {ls : List ScriptLine} (h : Ready s) (hrun : runScript ls s = .next t) : Ready t := by
  induction ls generalizing s with
  | nil => cases hrun; exact h
  | cons l ls ih =>
    obtain ⟨u, hl, hls⟩ := runScript_cons_next hrun
    exact ih (ready_runLine h hl) hls

/-- Settles O49: every line of the script leaves the block ready with the invariants, and there each call answers. -/
theorem anyOrderOfCallers : Obligations.AnyOrderOfCallers := by
  intro ls s t B L hs hw hrun hB hl
  obtain ⟨hwt, ht⟩ := ready_runScript ⟨hw, hs⟩ hrun
  exact ⟨hwt, ht, callsAnswer t B L ht hwt hB hl⟩

end Sys2Proof.Machine
end

section
/-! SUPPORT. Reset and hazards (spec/70_reset_and_hazards.md): reset abandons the command in progress (R105 to R108), a
busy block counts down to IDLE while the word at its port waits (R113, R122), and the bytes of `BUF` that no micro-step
reads are the host's (R114). -/

namespace Sys2Proof.Machine

variable {s t : State}

/-! ## Reset and the held command -/

/-- Settles O15: each command's `exec` asks first whether the block is busy. -/
theorem busyHoldsCommand : Obligations.BusyHoldsCommand := fun i _ hp => exec_of_busy i hp

/-- Settles O45: reset wins over everything, and the state it takes is the reset state with the host's buffer. -/
theorem resetAbandons : Obligations.ResetAbandons := fun s =>
  ⟨takeReset (hostReset s), step_of_reset rfl, rfl, rfl, rfl, readTable_reset, rfl,
    observe_result_eq_none.mpr rfl, rfl, rfl, rfl⟩

/-! ## The micro-steps left -/

/-- The micro-steps of FOLD that follow a generation (R61): `LEN` + 1 for crc16_poly_fold, else none. -/
def foldStepsAfterGen (s : State) : Nat := if s.op = .crc16PolyFold then s.len.toNat + 1 else 0

/-- The micro-steps from a state to IDLE: in GEN what is left of entry `TI`, nine for each later entry, and the fold
that follows; in FOLD and ACCUM one for each byte left, and the last. -/
def stepsToIdle (s : State) : Nat :=
  match s.phase with
  | .idle => 0
  | .gen => 9 * (255 - s.ti.toNat) + (8 - s.rk.val) + 1 + foldStepsAfterGen s
  | .fold => s.len.toNat - s.idx.toNat + 1
  | .accum => s.len.toNat - s.idx.toNat + 1

theorem stepsToIdle_idle (hp : s.phase = .idle) : stepsToIdle s = 0 := by simp [stepsToIdle, hp]

theorem stepsToIdle_gen (hp : s.phase = .gen) :
    stepsToIdle s = 9 * (255 - s.ti.toNat) + (8 - s.rk.val) + 1 + foldStepsAfterGen s := by
  simp [stepsToIdle, hp]

theorem stepsToIdle_fold (hp : s.phase = .fold) : stepsToIdle s = s.len.toNat - s.idx.toNat + 1 := by
  simp [stepsToIdle, hp]

theorem stepsToIdle_accum (hp : s.phase = .accum) : stepsToIdle s = s.len.toNat - s.idx.toNat + 1 := by
  simp [stepsToIdle, hp]

theorem stepsToIdle_eq_zero_iff : stepsToIdle s = 0 ↔ s.phase = .idle := by
  cases hp : s.phase with
  | idle => simp [stepsToIdle_idle hp]
  | gen => simp [stepsToIdle_gen hp]
  | fold => simp [stepsToIdle_fold hp]
  | accum => simp [stepsToIdle_accum hp]

/-- A generation of 2304 micro-steps and a loop over `LEN` bytes are the most that can be left (R122). -/
theorem stepsToIdle_le (s : State) : stepsToIdle s ≤ 2304 + s.len.toNat + 1 := by
  cases hp : s.phase with
  | idle => rw [stepsToIdle_idle hp]; omega
  | gen =>
    have hfold : foldStepsAfterGen s ≤ s.len.toNat + 1 := by rw [foldStepsAfterGen]; split <;> omega
    rw [stepsToIdle_gen hp]; omega
  | fold => rw [stepsToIdle_fold hp]; omega
  | accum => rw [stepsToIdle_accum hp]; omega

/-- Every micro-step of a busy block leaves one fewer to IDLE. -/
theorem stepsToIdle_engineStep (hb : s.phase ≠ .idle) (h : engineStep s = .next t) :
    stepsToIdle t + 1 = stepsToIdle s := by
  cases engineStep_cases h with
  | idle hp ht => exact absurd hp hb
  | round hp hk ht =>
    subst ht
    have hfold : foldStepsAfterGen (genRound s) = foldStepsAfterGen s := rfl
    rw [stepsToIdle_gen hp, stepsToIdle_gen (s := genRound s) hp, genRound_ti, genRound_rk, rk_succ hk, hfold]
    omega
  | commit hp hk hi ht =>
    subst ht
    have hfold : foldStepsAfterGen (nextEntry (commitEntry s)) = foldStepsAfterGen s := rfl
    rw [stepsToIdle_gen hp, stepsToIdle_gen (s := nextEntry (commitEntry s)) hp, nextEntry_ti, commitEntry_ti,
      ti_succ hi, nextEntry_rk, hk, hfold]
    simp only [Fin.val_zero]
    omega
  | lastFold hp hk hi ho ht =>
    subst ht
    rw [stepsToIdle_gen hp, stepsToIdle_fold rfl, foldStepsAfterGen, if_pos ho, hk, hi]
    simp only [enterFold_len, enterFold_idx, publishTable_len, commitEntry_len, BitVec.toNat_ofNat]
    omega
  | lastIdle hp hk hi ho ht =>
    subst ht
    rw [stepsToIdle_gen hp, stepsToIdle_idle rfl, foldStepsAfterGen, if_neg ho, hk, hi]
    rfl
  | foldByte hp hl hb e he ht =>
    subst ht
    rw [stepsToIdle_fold hp, stepsToIdle_fold (s := foldEntry e s) hp, foldEntry_len, foldEntry_idx, idx_succ hl]
    omega
  | foldFinish hp hl ht => rw [ht, stepsToIdle_fold hp, stepsToIdle_idle rfl, hl, Nat.sub_self]
  | accumByte hp hl hb ht =>
    subst ht
    rw [stepsToIdle_accum hp, stepsToIdle_accum (s := addByte _ s) hp, addByte_len, addByte_idx, idx_succ hl]
    omega
  | accumFinish hp hl ht => rw [ht, stepsToIdle_accum hp, stepsToIdle_idle rfl, hl, Nat.sub_self]

/-! ## The run to IDLE -/

/-- `u` is the state of the block `m` micro-steps after `s`, on its way to IDLE: the host's side of the port is as in
`s`, and `m` fewer micro-steps are left. -/
structure OnWayToIdle (s : State) (m : Nat) (u : State) : Prop where
  run : run m s = .next u
  inv : Inv u
  resetLine : u.resetLine = false
  cmdWord : u.cmdWord = s.cmdWord
  cmdBuf : u.cmdBuf = s.cmdBuf
  left : stepsToIdle u + m = stepsToIdle s

theorem OnWayToIdle.busy {m : Nat} {u : State} (h : OnWayToIdle s m u) (hm : m < stepsToIdle s) : u.phase ≠ .idle := by
  have hleft := h.left
  rw [Ne, ← stepsToIdle_eq_zero_iff]
  omega

theorem OnWayToIdle.idle {u : State} (h : OnWayToIdle s (stepsToIdle s) u) : u.phase = .idle := by
  have hleft := h.left
  rw [← stepsToIdle_eq_zero_iff]
  omega

/-- One more micro-step is enabled and goes on (R122). -/
theorem OnWayToIdle.succ {m : Nat} {u : State} (h : OnWayToIdle s m u) (hm : m < stepsToIdle s) :
    ∃ v, OnWayToIdle s (m + 1) v := by
  have hb := h.busy hm
  obtain ⟨v, hv⟩ := exists_engineStep h.inv
  obtain ⟨-, hcmdWord, hcmdBuf, hresetLine, -⟩ := engineStep_keeps hv
  have hleft : stepsToIdle v + (m + 1) = stepsToIdle s := by
    rw [← h.left, ← stepsToIdle_engineStep hb hv]
    omega
  exact ⟨v, {
    run := (run_add m 1 h.run).trans (run_one_busy h.resetLine hb hv)
    inv := inv_engineStep h.inv hv
    resetLine := hresetLine.trans h.resetLine
    cmdWord := hcmdWord.trans h.cmdWord
    cmdBuf := hcmdBuf.trans h.cmdBuf
    left := hleft }⟩

theorem exists_onWayToIdle (h : Inv s) (hr : s.resetLine = false) {m : Nat} (hm : m ≤ stepsToIdle s) :
    ∃ u, OnWayToIdle s m u := by
  induction m with
  | zero => exact ⟨s, rfl, h, hr, rfl, rfl, rfl⟩
  | succ m ih =>
    obtain ⟨u, hu⟩ := ih (by omega)
    exact hu.succ hm

/-- Settles O35: the run takes as many micro-steps as are left, and the block is busy before the last of them. -/
theorem reachesIdle : Obligations.ReachesIdle := by
  intro s h hr _
  obtain ⟨t, ht⟩ := exists_onWayToIdle h hr le_rfl
  refine ⟨stepsToIdle s, t, stepsToIdle_le s, ht.run, ht.idle, fun m hm => ?_⟩
  obtain ⟨u, hu⟩ := exists_onWayToIdle h hr hm.le
  exact ⟨u, hu.run, hu.busy hm, step_of_busy hu.resetLine (hu.busy hm)⟩

/-! ## The waiting word -/

/-- While a word waits, the host cannot replace it (R113). -/
theorem hostPresent_of_cmdWord {c : U32} (hw : s.cmdWord = some c) (d : U32) : hostPresent d s = s := by
  simp [hostPresent, hw]

/-- While a word waits, the host cannot replace its buffer (R113). -/
theorem hostBind_of_cmdWord {c : U32} (hw : s.cmdWord = some c) (B : Buffer) : hostBind B s = s := by
  simp [hostBind, hw]

/-- Whether a command is acceptable depends on the bound buffer alone (R37). -/
theorem acceptable_congr (i : Instr) (h : t.cmdBuf = s.cmdBuf) : acceptable i t = acceptable i s := by
  cases i <;> simp [h]

/-- Settles O36: on the way to IDLE the host's side of the port stays as it is, and the first idle state runs the
waiting command, which accepts it or refuses it by its length. -/
theorem portWordWaits : Obligations.PortWordWaits := by
  intro s c i h hr _ hw hd
  obtain ⟨t, ht⟩ := exists_onWayToIdle h hr le_rfl
  have hwt : t.cmdWord = some c := ht.cmdWord.trans hw
  have hstep : step t = exec i t := step_of_cmd ht.resetLine ht.idle hwt hd
  have hacc : acceptable i t = acceptable i s := acceptable_congr i ht.cmdBuf
  refine ⟨stepsToIdle s, t, ht.run, ht.idle, hwt, ht.cmdBuf, hstep, fun ha => ?accepts, fun ha => ?refuses,
    fun m hm => ?waits⟩
  case accepts =>
    obtain ⟨hrvalid, hcmdWord, -⟩ := accepted_keeps i t
    exact ⟨accepted i t, hstep.trans (exec_of_acceptable ht.idle (hacc.trans ha)), hcmdWord, hrvalid⟩
  case refuses => exact hstep.trans ((exec_refuses_length_iff i ht.idle).mpr (hacc.trans ha))
  case waits =>
    obtain ⟨u, hu⟩ := exists_onWayToIdle h hr hm.le
    have hwu : u.cmdWord = some c := hu.cmdWord.trans hw
    exact ⟨u, hu.run, hu.busy hm, hwu, hu.cmdBuf, hostPresent_of_cmdWord hwu, hostBind_of_cmdWord hwu⟩

/-! ## The bytes that no micro-step reads -/

/-- GEN neither reads nor writes `BUF` (R61). -/
theorem genStep_takeBuffer (B : Buffer) (s : State) : genStep (takeBuffer B s) = takeBuffer B (genStep s) := by
  have hfinish : ∀ u : State, finishGen (takeBuffer B u) = takeBuffer B (finishGen u) := fun u => by
    rw [finishGen, finishGen, takeBuffer_op]; split <;> rfl
  have hcommit : genCommit (takeBuffer B s) = takeBuffer B (genCommit s) := by
    rw [genCommit, genCommit, takeBuffer_ti]
    split
    · rfl
    · exact hfinish (commitEntry s)
  rw [genStep, genStep, takeBuffer_rk]
  split
  · rfl
  · exact hcommit

/-- A micro-step with another buffer of the same size that holds the same bytes below `LEN` does the same. -/
theorem engineStep_takeBuffer {B : Buffer} (hsize : B.size = s.buf.size)
    (hsame : ∀ k, k < s.len.toNat → B.byteAt k = s.buf.byteAt k) (h : engineStep s = .next t) :
    engineStep (takeBuffer B s) = .next (takeBuffer B t) := by
  have inRange : s.idx.toNat < s.buf.size.toNat → s.idx.toNat < B.size.toNat := fun hb => hsize ▸ hb
  cases hp : s.phase with
  | idle =>
    cases (engineStep_idle hp).symm.trans h
    exact engineStep_idle hp
  | gen =>
    cases (engineStep_gen hp).symm.trans h
    rw [← genStep_takeBuffer]
    exact engineStep_gen hp
  | fold =>
    rw [engineStep_fold (s := takeBuffer B s) hp]
    cases engineStep_cases h with
    | foldByte _ hl hb e he ht =>
      subst ht
      rw [← hsame _ hl] at he
      exact (foldStep_of_lt (s := takeBuffer B s) hl).trans (foldByte_eq (inRange hb) he)
    | foldFinish _ hl ht => subst ht; exact foldStep_of_eq hl
    | _ => simp_all  -- the other cases start in another PHASE
  | accum =>
    rw [engineStep_accum (s := takeBuffer B s) hp]
    cases engineStep_cases h with
    | accumByte _ hl hb ht =>
      subst ht
      rw [← hsame _ hl]
      exact (accumStep_of_lt (s := takeBuffer B s) hl).trans (accumByte_eq (inRange hb))
    | accumFinish _ hl ht => subst ht; exact accumStep_of_eq hl
    | _ => simp_all  -- the other cases start in another PHASE

/-- The host may change the bytes at `LEN` and above (R114). -/
theorem hostWriteByte_of_le {i : Nat} (hi : s.len.toNat ≤ i) (b : U8) :
    hostWriteByte i b s = takeBuffer (s.buf.write i b) s := by
  simp [hostWriteByte, hostMayWrite, hi]

/-- Settles O50: the write keeps the size of `BUF` and its bytes below `LEN`, all that a micro-step depends on. -/
theorem unreadBytesMayChange : Obligations.UnreadBytesMayChange := by
  intro s i b h _ hi
  obtain ⟨t, ht⟩ := exists_engineStep h
  rw [hostWriteByte_of_le hi]
  exact ⟨t, ht, engineStep_takeBuffer (Buffer.write_size _ _ _)
    (fun k hk => Buffer.byteAt_write_of_ne h.buf b (by omega)) ht⟩

end Sys2Proof.Machine
end
